-- ==== Sys2Proof/Word.lean ====
section
/-!
DEFINITION. The word types of the block (spec/00_scope.md R7, R12): every value is unsigned and has a fixed width.
-/

namespace Sys2Proof

/-- A memory cell or a latch slot (R7: "65536 cells of 8 bits", "2 slots of 8 bits"). -/
abbrev Byte := BitVec 8

/-- The status word and the bus value (R7: `SR_W` and `BUS_W` are 16 bits). -/
abbrev Word := BitVec 16

/-- A command word (R71: "A command word is 32 bits, one length only"). -/
abbrev Command := BitVec 32

end Sys2Proof
end

