-- ==== Sys2Proof/Syntax.lean ====
section
/-!
DEFINITION. The sixteen operations of the block, one constructor for each row of spec/opcode_table.json (R70).
-/

namespace Sys2Proof

/-- The abstract operation type `Op` of R70. Bit positions, memory addresses and the dump count are natural numbers, so
that a value out of range can be asked for (R12, R76); bus values and data bytes have their width. -/
inductive Instr where
  /-- SR.INIT (R121). -/
  | srInit
  /-- SR.SET `pos` (R123). -/
  | srSet (pos : Nat)
  /-- SR.CLR `pos` (R125). -/
  | srClr (pos : Nat)
  /-- SR.TEST `pos` (R127). -/
  | srTest (pos : Nat)
  /-- SR.READ (R129). -/
  | srRead
  /-- BUS.INIT (R141). -/
  | busInit
  /-- BUS.SET `pos` (R143). -/
  | busSet (pos : Nat)
  /-- BUS.CLR `pos` (R145). -/
  | busClr (pos : Nat)
  /-- BUS.REPACK `x` (R148). -/
  | busRepack (x : Word)
  /-- BUS.SPLIT `x` (R152). -/
  | busSplit (x : Word)
  /-- BUS.READ (R156). -/
  | busRead
  /-- BUS.READBYTES (R158). -/
  | busReadBytes
  /-- MEM.READ `a` (R171). -/
  | memRead (a : Nat)
  /-- MEM.WRITE `a, v` (R174). -/
  | memWrite (a : Nat) (v : Byte)
  /-- MEM.LOADSAMPLE (R188). -/
  | memLoadSample
  /-- MEM.DUMP `n` (R189). -/
  | memDump (n : Nat)
  deriving DecidableEq, Repr

end Sys2Proof
end

