-- ==== Sys2Proof/Machine/State.lean ====
section
/-!
DEFINITION. The block's state (R20), its responses (R16, R200), the requester's stream of requests (R6, R215), and the
state after reset (R230, R231).
-/

namespace Sys2Proof.Machine

/-- The latch `BB` (R20, R31). `unwritten` is the spec's own state after reset (R33), not a missing value. -/
inductive Latch where
  | unwritten
  | written (lo hi : Byte)
  deriving DecidableEq, Repr

/-- Memory `M` (R34): addresses strictly rising, no cell equal to what an unlisted address reads as. -/
abbrev Memory := List Host.Cell

/-- What a cell that memory does not list reads as: every cell is `0x00` at creation (R36). -/
def resetByte : Byte := 0x00

/-- The result of a response (R16). -/
inductive Result where
  | none
  | bit (b : Bool)
  | word (w : Word)
  | byte (v : Byte)
  | pair (lo hi : Byte)
  | text (t : String)
  deriving DecidableEq, Repr

/-- The error of an operation with the information it records (R15 `Error(s, code, info)`, R200). -/
inductive CallerError where
  /-- A bit position not below the declared width (R201). -/
  | invalidBitPosition (pos : Nat)
  /-- A memory address above `0xFFFF` (R202). -/
  | invalidAddress (a : Nat)
  /-- A command word that spells no operation (R203). -/
  | illegalCommand (w : Command)
  /-- BUS.READBYTES before any BUS.SPLIT (R204). -/
  | unwrittenLatch
  deriving DecidableEq, Repr

/-- How one request ended: `done` is R14's `respond(r)`, `error` is its `raise E(info)`. -/
inductive Reply where
  | done (r : Result)
  | error (e : CallerError)
  deriving DecidableEq, Repr

/-- The response status (R200). -/
inductive Status where
  | ok
  | invalidBitPosition
  | invalidAddress
  | illegalCommand
  | unwrittenLatch
  deriving DecidableEq, Repr

/-- A response is the pair of a status and a result (R16). -/
structure Response where
  status : Status
  result : Result
  deriving DecidableEq, Repr

/-- A request is a command word or an abstract operation (R6). -/
inductive Request where
  | word (w : Command)
  | op (i : Instr)
  deriving DecidableEq, Repr

/-- The machine: the block's four state elements (R20: "nothing else is state"), and beside them the requester's side
of the interface as plain data, which is the model's own (log entries 1 and 2). -/
structure State where
  /-- `SR`, the status register (R23, R24). -/
  sr : Word
  /-- `BV`, the bus value (R29). -/
  bv : Word
  /-- `BB`, the byte latch (R31). -/
  bb : Latch
  /-- `M`, the memory (R34). -/
  mem : Memory
  /-- The requests issued and not yet taken, the next one first (R215; log entry 1, DESIGN CHOICE). -/
  requests : List Request
  /-- The replies given so far, the latest one last (R215; log entry 2, DESIGN CHOICE). No operation reads it. -/
  replies : List Reply
  deriving DecidableEq, Repr

/-- Why a step can stop with a fault: never. The spec describes nothing that stops the block: an error is a response
and "after an error the block takes the next request normally" (R206, R207; log entry 6, DEDUCED). -/
inductive Fault where
  deriving DecidableEq, Repr

/-- Why the model can refuse an operation. -/
inductive Refusal where
  /-- Raised by an arm of `exec` whose operation has no meaning yet; no arm is left in that state. Safe: nothing can be
  proved of what a refused operation would have done. -/
  | notModelled (mnemonic : String)
  deriving DecidableEq, Repr

/-- The state after reset (R230, R231): `SR` is `0xFF00` (R27), `BV` is `0x1000` (R30), `BB` is `Unwritten` (R33), every
cell is `0x00` (R36) and no request is outstanding (R230). -/
def State.reset : State :=
  { sr := 0xFF00, bv := 0x1000, bb := .unwritten, mem := [], requests := [], replies := [] }

end Sys2Proof.Machine
end

