-- ==== Sys2Proof/Machine/Flags.lean ====
section
/-!
DEFINITION. The BitOps primitives (R100 to R104) and the flags of the status register (R19, R24). No operation computes
a flag from data (R26, R107), so these are all the flag computations the block has.
-/

namespace Sys2Proof.Machine

/-- `setBit(v, pos)` (R102). Operations check the position first (R101). -/
def setBit {n : Nat} (v : BitVec n) (pos : Nat) : BitVec n := v ||| (1#n <<< pos)

/-- `clearBit(v, pos)` (R103). -/
def clearBit {n : Nat} (v : BitVec n) (pos : Nat) : BitVec n := v &&& ~~~(1#n <<< pos)

/-- `isBitSet(v, pos)` (R104). -/
def isBitSet {n : Nat} (v : BitVec n) (pos : Nat) : Bool := v.getLsbD pos

/-- The eight flags (R19). They have names and no behaviour inside the block (R26). -/
inductive Flag where
  | carry
  | zero
  | interruptDisable
  | decimal
  | brk
  | unused
  | overflow
  | sign
  deriving DecidableEq, Repr

/-- The bit number of a flag (R19, R24). -/
def Flag.bit (f : Flag) : Nat :=
  match f with
  | .carry => 0
  | .zero => 1
  | .interruptDisable => 2
  | .decimal => 3
  | .brk => 4
  | .unused => 5
  | .overflow => 6
  | .sign => 7

/-- The flag's stored bit. -/
def State.flag (s : State) (f : Flag) : Bool := isBitSet s.sr f.bit

end Sys2Proof.Machine
end

