-- ==== Sys2Proof/Config.lean ====
section
/-!
DEFINITION. What an implementation of the block fixes: the one open parameter of the spec, `SPLIT_MODE` (R8).
-/

namespace Sys2Proof

/-- The two values of `SPLIT_MODE` (R8, R153): which byte of its operand BUS.SPLIT puts in which latch slot. -/
inductive SplitMode where
  /-- Slot `lo` gets the low byte: the source's option (b), its stated invariant. -/
  | invariant
  /-- Slot `lo` gets the high byte: the source's option (a), what its code does. -/
  | sourceSwapped
  deriving DecidableEq, Repr, Inhabited

/-- `SPLIT_MODE` of this block. R8: "the spec fixes no default", so the constant has no body and no proof can learn
its value; a claim about it holds under both values (log entry 4, DESIGN CHOICE, safe). -/
opaque Config.splitMode : SplitMode

end Sys2Proof
end

