-- ==== Sys2Proof/Machine/Operands.lean ====
section
/-!
DEFINITION. The operand checks (R101, R172) and the byte operations on a 16-bit operand (R147, R152).
-/

namespace Sys2Proof.Machine

/-- The declared width of the status register, against which its positions are checked (R7, R28). -/
def srPosWidth : Nat := 8

/-- The declared width of the bus (R7, R144). -/
def busPosWidth : Nat := 16

/-- `validPos(W, pos)` (R101). -/
def validPos (width pos : Nat) : Bool := decide (pos < width)

/-- A memory address is valid exactly when it is at most `0xFFFF` (R172). -/
def validAddress (a : Nat) : Bool := decide (a ≤ 0xFFFF)

/-- A dump count is valid exactly when it is at most `0x10000` (R189, R192). -/
def validCount (n : Nat) : Bool := decide (n ≤ 0x10000)

/-- `x[7:0]`. -/
def lowByte (x : Word) : Byte := x.extractLsb' 0 8

/-- `x[15:8]`. -/
def highByte (x : Word) : Byte := x.extractLsb' 8 8

/-- The byte swap of R147: `x[7:0] ++ x[15:8]`. -/
def swap16 (x : Word) : Word := lowByte x ++ highByte x

/-- The slots `(lo, hi)` that BUS.SPLIT writes (R152). -/
def splitSlots (mode : SplitMode) (x : Word) : Byte × Byte :=
  match mode with
  | .invariant => (lowByte x, highByte x)
  | .sourceSwapped => (highByte x, lowByte x)

end Sys2Proof.Machine
end

