-- ==== Sys2Proof/Machine/Ops.lean ====
section
/-!
DEFINITION. The shared operations: memory (R13, R34), register updates (R13), and ending an operation with a result or
with an error (R14, R205).
-/

namespace Sys2Proof.Machine

/-- `M[a]` (R13): the byte listed for the address, or the reset byte. -/
def Memory.read (m : Memory) (a : Nat) : Byte :=
  match m with
  | [] => resetByte
  | (k, v) :: rest => if a = k then v else Memory.read rest a

/-- The cell that lists `v` at `a`: nothing when an unlisted address reads as `v`. -/
def Memory.cell (a : Nat) (v : Byte) : Memory := if v = resetByte then [] else [(a, v)]

/-- `M[a] <- v` (R13), in the canonical form: the cell replaces the one at `a` or goes in at its place. -/
def Memory.write (m : Memory) (a : Nat) (v : Byte) : Memory :=
  match m with
  | [] => Memory.cell a v
  | (k, x) :: rest =>
    if a < k then Memory.cell a v ++ (k, x) :: rest
    else if a = k then Memory.cell a v ++ rest
    else (k, x) :: Memory.write rest a v

/-- Writes bytes at consecutive addresses, the first at `base`. -/
def Memory.writeBytes (m : Memory) (base : Nat) (bytes : List Byte) : Memory :=
  match bytes with
  | [] => m
  | v :: rest => Memory.writeBytes (m.write base v) (base + 1) rest

/-- The canonical form from the address `low` on: addresses strictly rising within the address space
`0x0000` to `0xFFFF` (R34), no cell equal to the reset byte. -/
def Memory.wfFrom (m : Memory) (low : Nat) : Bool :=
  match m with
  | [] => true
  | (k, v) :: rest => decide (low ≤ k) && decide (k ≤ 0xFFFF) && decide (v ≠ resetByte) && Memory.wfFrom rest (k + 1)

/-- The canonical form of a memory (log entry 5). -/
def Memory.wf (m : Memory) : Bool := Memory.wfFrom m 0

/-- `SR <- v` (R13). -/
def State.setSr (s : State) (v : Word) : State := { s with sr := v }

/-- `BV <- v` (R13). -/
def State.setBv (s : State) (v : Word) : State := { s with bv := v }

/-- `BB <- (lo, hi)` (R13): both slots at once (R31). -/
def State.setBb (s : State) (lo hi : Byte) : State := { s with bb := .written lo hi }

/-- `M` replaced by `m`. -/
def State.setMem (s : State) (m : Memory) : State := { s with mem := m }

/-- The state after giving one reply (R215). -/
def State.reply (s : State) (r : Reply) : State := { s with replies := s.replies ++ [r] }

/-- `respond(r)` (R14): the operation ends successfully with result `r`. -/
def respond (r : Result) (s : State) : Host.Outcome State Fault Refusal := .next (s.reply (.done r))

/-- `raise E(info)` (R14), the block's one way of taking an error. R205: an error writes no state; R206: it is not a
trap, saves nothing and transfers control nowhere; R207: the next request is taken normally, and no operation returns
from an error. -/
def raise (e : CallerError) (s : State) : Host.Outcome State Fault Refusal := .next (s.reply (.error e))

/-- The status of an error (R200). -/
def CallerError.status (e : CallerError) : Status :=
  match e with
  | .invalidBitPosition _ => .invalidBitPosition
  | .invalidAddress _ => .invalidAddress
  | .illegalCommand _ => .illegalCommand
  | .unwrittenLatch => .unwrittenLatch

/-- The numeric status codes (R200). -/
def Status.code (st : Status) : Nat :=
  match st with
  | .ok => 0
  | .invalidBitPosition => 1
  | .invalidAddress => 2
  | .illegalCommand => 3
  | .unwrittenLatch => 4

/-- The response of a reply (R16): on an error the result is `none`. -/
def Reply.response (r : Reply) : Response :=
  match r with
  | .done res => ⟨.ok, res⟩
  | .error e => ⟨e.status, .none⟩

end Sys2Proof.Machine
end

