-- ==== Sys2Proof/Machine/AddressBus.lean ====
section
/-!
DEFINITION. The AddressBus operations (spec/42_address_bus.md).
-/

namespace Sys2Proof.Machine

/-- The sentinel BUS.INIT writes (R141, R142). -/
def bvInitial : Word := 0x1000

/-- The shape of BUS.SET and BUS.CLR: check the position, write the value that the primitive gives, answer it. -/
def updateBv (f : Word → Nat → Word) (pos : Nat) (s : State) : Host.Outcome State Fault Refusal :=
  if validPos busPosWidth pos then respond (.word (f s.bv pos)) (s.setBv (f s.bv pos))
  else raise (.invalidBitPosition pos) s

/-- BUS.INIT (R141): `BB` is unchanged. -/
def execBusInit (s : State) : Host.Outcome State Fault Refusal := respond (.word bvInitial) (s.setBv bvInitial)

/-- BUS.SET `pos` (R143, R146). -/
def execBusSet (pos : Nat) (s : State) : Host.Outcome State Fault Refusal := updateBv setBit pos s

/-- BUS.CLR `pos` (R145, R146). -/
def execBusClr (pos : Nat) (s : State) : Host.Outcome State Fault Refusal := updateBv clearBit pos s

/-- BUS.REPACK `x` (R148, R149): writes the swapped operand to `BV` and answers it. -/
def execBusRepack (x : Word) (s : State) : Host.Outcome State Fault Refusal :=
  respond (.word (swap16 x)) (s.setBv (swap16 x))

/-- BUS.SPLIT `x` (R152, R154, R155) in the given mode: `BV` is neither read nor written. -/
def execBusSplitIn (mode : SplitMode) (x : Word) (s : State) : Host.Outcome State Fault Refusal :=
  let slots := splitSlots mode x
  respond (.pair slots.1 slots.2) (s.setBb slots.1 slots.2)

/-- BUS.SPLIT `x` in the block's own mode (R8). -/
def execBusSplit (x : Word) (s : State) : Host.Outcome State Fault Refusal := execBusSplitIn Config.splitMode x s

/-- BUS.READ (R156). -/
def execBusRead (s : State) : Host.Outcome State Fault Refusal := respond (.word s.bv) s

/-- BUS.READBYTES (R158). -/
def execBusReadBytes (s : State) : Host.Outcome State Fault Refusal :=
  match s.bb with
  | .unwritten => raise .unwrittenLatch s
  | .written lo hi => respond (.pair lo hi) s

end Sys2Proof.Machine
end

