-- ==== Sys2Proof/Machine/Diagnostics.lean ====
section
/-!
DEFINITION. The data of the diagnostic operations: the sample bytes (R180) and the dump text (R189 to R192).
-/

namespace Sys2Proof.Machine

/-- `SAMPLE` (R180), a constant, not state (R20). The block gives the bytes no meaning (R181). -/
def sample : List Byte :=
  [0xa9, 0x00, 0x20, 0x10, 0x00, 0x4c, 0x02, 0x00, 0x00, 0x00, 0x00, 0x00, 0x00, 0x00, 0x00, 0x40] ++
  [0xe8, 0x00, 0x20, 0x10, 0x00, 0x4c, 0x02, 0x00, 0x00, 0x00, 0x00, 0x00, 0x00, 0x00, 0x00, 0x40]

/-- A hexadecimal digit from `0123456789abcdef` (R190). -/
def hexDigit (d : BitVec 4) : Char := "0123456789abcdef".toList.getD d.toNat '0'

/-- `hex2(v)` (R190): the digit of `v[7:4]`, then that of `v[3:0]`. -/
def hex2 (v : Byte) : List Char := [hexDigit (v.extractLsb' 4 4), hexDigit (v.extractLsb' 0 4)]

/-- The address label (R191): the starting address in four digits and a colon. -/
def dumpLabel (start : Word) : List Char := hex2 (highByte start) ++ hex2 (lowByte start) ++ [':']

/-- One space and the digits of each of `count` cells from address `a` on (R191). -/
def dumpCells (m : Memory) (a count : Nat) : List Char :=
  match count with
  | 0 => []
  | k + 1 => ' ' :: hex2 (m.read a) ++ dumpCells m (a + 1) k

/-- The text of MEM.DUMP `n` (R189): the label of address `0x0000`, then the first `n` cells. -/
def dumpText (m : Memory) (n : Nat) : String := String.ofList (dumpLabel 0x0000 ++ dumpCells m 0 n)

end Sys2Proof.Machine
end

