-- ==== Sys2Proof/Machine/MemoryArray.lean ====
section
/-!
DEFINITION. The Memory operations (spec/43_memory_ops.md), the two diagnostic ones among them (R9).
-/

namespace Sys2Proof.Machine

/-- MEM.READ `a` (R171, R172): the address is the operand, never `BV` (R53). -/
def execMemRead (a : Nat) (s : State) : Host.Outcome State Fault Refusal :=
  if validAddress a then respond (.byte (s.mem.read a)) s else raise (.invalidAddress a) s

/-- MEM.WRITE `a, v` (R174, R175). -/
def execMemWrite (a : Nat) (v : Byte) (s : State) : Host.Outcome State Fault Refusal :=
  if validAddress a then respond .none (s.setMem (s.mem.write a v)) else raise (.invalidAddress a) s

/-- MEM.LOADSAMPLE (R188): the 32 bytes in one atomic step. -/
def execMemLoadSample (s : State) : Host.Outcome State Fault Refusal :=
  respond .none (s.setMem (s.mem.writeBytes 0x0000 sample))

/-- MEM.DUMP `n` (R189, R192). -/
def execMemDump (n : Nat) (s : State) : Host.Outcome State Fault Refusal :=
  if validCount n then respond (.text (dumpText s.mem n)) s else raise (.invalidAddress (n - 1)) s

end Sys2Proof.Machine
end

