-- ==== Sys2Proof/Machine/StatusRegister.lean ====
section
/-!
DEFINITION. The StatusRegister operations (spec/41_status_register.md).
-/

namespace Sys2Proof.Machine

/-- The value SR.INIT writes (R121). -/
def srInitial : Word := 0xFF00

/-- The shape of SR.SET and SR.CLR: check the position, write the word that the primitive gives, answer it. -/
def updateSr (f : Word → Nat → Word) (pos : Nat) (s : State) : Host.Outcome State Fault Refusal :=
  if validPos srPosWidth pos then respond (.word (f s.sr pos)) (s.setSr (f s.sr pos))
  else raise (.invalidBitPosition pos) s

/-- SR.INIT (R121, R122). -/
def execSrInit (s : State) : Host.Outcome State Fault Refusal := respond (.word srInitial) (s.setSr srInitial)

/-- SR.SET `pos` (R123, R124). -/
def execSrSet (pos : Nat) (s : State) : Host.Outcome State Fault Refusal := updateSr setBit pos s

/-- SR.CLR `pos` (R125, R124). -/
def execSrClr (pos : Nat) (s : State) : Host.Outcome State Fault Refusal := updateSr clearBit pos s

/-- SR.TEST `pos` (R127). -/
def execSrTest (pos : Nat) (s : State) : Host.Outcome State Fault Refusal :=
  if validPos srPosWidth pos then respond (.bit (isBitSet s.sr pos)) s else raise (.invalidBitPosition pos) s

/-- SR.READ (R129). -/
def execSrRead (s : State) : Host.Outcome State Fault Refusal := respond (.word s.sr) s

end Sys2Proof.Machine
end

