-- ==== Sys2Proof/Machine/Dispatch.lean ====
section
/-!
DEFINITION. One arm for each operation (R70).
-/

namespace Sys2Proof.Machine

def exec (i : Instr) (s : State) : Host.Outcome State Fault Refusal :=
  match i with
  | .srInit => Sys2Proof.Machine.execSrInit s
  | .srSet pos => Sys2Proof.Machine.execSrSet pos s
  | .srClr pos => Sys2Proof.Machine.execSrClr pos s
  | .srTest pos => Sys2Proof.Machine.execSrTest pos s
  | .srRead => Sys2Proof.Machine.execSrRead s
  | .busInit => Sys2Proof.Machine.execBusInit s
  | .busSet pos => Sys2Proof.Machine.execBusSet pos s
  | .busClr pos => Sys2Proof.Machine.execBusClr pos s
  | .busRepack x => Sys2Proof.Machine.execBusRepack x s
  | .busSplit x => Sys2Proof.Machine.execBusSplit x s
  | .busRead => Sys2Proof.Machine.execBusRead s
  | .busReadBytes => Sys2Proof.Machine.execBusReadBytes s
  | .memRead a => Sys2Proof.Machine.execMemRead a s
  | .memWrite a v => Sys2Proof.Machine.execMemWrite a v s
  | .memLoadSample => Sys2Proof.Machine.execMemLoadSample s
  | .memDump n => Sys2Proof.Machine.execMemDump n s

end Sys2Proof.Machine
end

