-- ==== Sys2Proof/WellFormed.lean ====
section
/-!
DEFINITION. Which operations a command word can spell: every operand fits its field (R79).
-/

namespace Sys2Proof

/-- R79: `encode` "is defined only when each operand fits its field: `pos <= 255`, `a <= 0xFFFF`, `n <= 0xFFFF`".
An operation that fails this check is still a legal abstract request (R76); it only has no command word. -/
def Instr.wellFormed (i : Instr) : Bool :=
  match i with
  | .srInit => true
  | .srSet pos => decide (pos ≤ 255)
  | .srClr pos => decide (pos ≤ 255)
  | .srTest pos => decide (pos ≤ 255)
  | .srRead => true
  | .busInit => true
  | .busSet pos => decide (pos ≤ 255)
  | .busClr pos => decide (pos ≤ 255)
  | .busRepack _ => true
  | .busSplit _ => true
  | .busRead => true
  | .busReadBytes => true
  | .memRead a => decide (a ≤ 0xFFFF)
  | .memWrite a _ => decide (a ≤ 0xFFFF)
  | .memLoadSample => true
  | .memDump n => decide (n ≤ 0xFFFF)

end Sys2Proof
end

