-- ==== Sys2Proof/Decode.lean ====
section
/-!
DEFINITION. The command word (R71, R72), the opcode map (R73), the decoder (R74) and the encoder, its inverse (R79).
-/

namespace Sys2Proof

/-- The field `OP`, bits 31:24 (R71). -/
def opField (w : Command) : Byte := w.extractLsb' 24 8

/-- The field `A`, bits 23:8 (R71). -/
def aField (w : Command) : Word := w.extractLsb' 8 16

/-- The field `B`, bits 7:0 (R71). -/
def bField (w : Command) : Byte := w.extractLsb' 0 8

/-- The word `OP ++ A ++ B` (R79). -/
def packWord (op : Byte) (a : Word) (b : Byte) : Command := op ++ a ++ b

/-- What the decoder answers for a word that spells no operation (R74, R77): its name, with the word. -/
inductive Rejection where
  /-- `IllegalCommand(w)` (R203): an unassigned `OP`, or a nonzero field that the format marks 0. -/
  | illegalCommand (w : Command)
  deriving DecidableEq, Repr

/-- Format N (R72): `A` and `B` must be zero. -/
def decodeN (i : Instr) (w : Command) : Except Rejection Instr :=
  if aField w = 0 ∧ bField w = 0 then .ok i else .error (.illegalCommand w)

/-- Format P (R72): `A` must be zero, `B` is a bit position, read as an unsigned number (R75). -/
def decodeP (f : Nat → Instr) (w : Command) : Except Rejection Instr :=
  if aField w = 0 then .ok (f (bField w).toNat) else .error (.illegalCommand w)

/-- Format A (R72): `A` is the operand, `B` must be zero. -/
def decodeA (f : Word → Instr) (w : Command) : Except Rejection Instr :=
  if bField w = 0 then .ok (f (aField w)) else .error (.illegalCommand w)

/-- Format AB (R72): `A` is an address, `B` a data byte. -/
def decodeAB (f : Word → Byte → Instr) (w : Command) : Except Rejection Instr :=
  .ok (f (aField w) (bField w))

/-- The decoder of R74, total over 32-bit words. -/
def decode (w : Command) : Except Rejection Instr :=
  match opField w with
  | 0x10#8 => decodeN .srInit w
  | 0x11#8 => decodeP .srSet w
  | 0x12#8 => decodeP .srClr w
  | 0x13#8 => decodeP .srTest w
  | 0x14#8 => decodeN .srRead w
  | 0x20#8 => decodeN .busInit w
  | 0x21#8 => decodeP .busSet w
  | 0x22#8 => decodeP .busClr w
  | 0x23#8 => decodeA .busRepack w
  | 0x24#8 => decodeA .busSplit w
  | 0x25#8 => decodeN .busRead w
  | 0x26#8 => decodeN .busReadBytes w
  | 0x30#8 => decodeA (fun a => .memRead a.toNat) w
  | 0x31#8 => decodeAB (fun a v => .memWrite a.toNat v) w
  | 0x32#8 => decodeN .memLoadSample w
  | 0x33#8 => decodeA (fun n => .memDump n.toNat) w
  | _ => .error (.illegalCommand w)

/-- The encoder of R79: every operand in its field, every field marked 0 set to zero. It means something only for a
well-formed operation; the operand of an ill-formed one does not fit and is cut to its field. -/
def encode (i : Instr) : Command :=
  match i with
  | .srInit => packWord 0x10 0 0
  | .srSet pos => packWord 0x11 0 (.ofNat 8 pos)
  | .srClr pos => packWord 0x12 0 (.ofNat 8 pos)
  | .srTest pos => packWord 0x13 0 (.ofNat 8 pos)
  | .srRead => packWord 0x14 0 0
  | .busInit => packWord 0x20 0 0
  | .busSet pos => packWord 0x21 0 (.ofNat 8 pos)
  | .busClr pos => packWord 0x22 0 (.ofNat 8 pos)
  | .busRepack x => packWord 0x23 x 0
  | .busSplit x => packWord 0x24 x 0
  | .busRead => packWord 0x25 0 0
  | .busReadBytes => packWord 0x26 0 0
  | .memRead a => packWord 0x30 (.ofNat 16 a) 0
  | .memWrite a v => packWord 0x31 (.ofNat 16 a) v
  | .memLoadSample => packWord 0x32 0 0
  | .memDump n => packWord 0x33 (.ofNat 16 n) 0

/-- One row of the opcode map: a word selects it when `w &&& mask = pattern` (R73 calls the pattern "match"). -/
structure OpcodeRow where
  mnemonic : String
  pattern : Command
  mask : Command
  deriving DecidableEq, Repr

/-- Does the word select the row (R73)? -/
def OpcodeRow.selects (r : OpcodeRow) (w : Command) : Bool := w &&& r.mask == r.pattern

/-- The opcode map as R73 and spec/opcode_table.json print it. The decoder does not read it; that the two agree is a
claim. -/
def opcodeTable : List OpcodeRow :=
  [⟨"SR.INIT", 0x10000000, 0xFFFFFFFF⟩, ⟨"SR.SET", 0x11000000, 0xFFFFFF00⟩,
   ⟨"SR.CLR", 0x12000000, 0xFFFFFF00⟩, ⟨"SR.TEST", 0x13000000, 0xFFFFFF00⟩,
   ⟨"SR.READ", 0x14000000, 0xFFFFFFFF⟩] ++
  [⟨"BUS.INIT", 0x20000000, 0xFFFFFFFF⟩, ⟨"BUS.SET", 0x21000000, 0xFFFFFF00⟩,
   ⟨"BUS.CLR", 0x22000000, 0xFFFFFF00⟩, ⟨"BUS.REPACK", 0x23000000, 0xFF0000FF⟩,
   ⟨"BUS.SPLIT", 0x24000000, 0xFF0000FF⟩, ⟨"BUS.READ", 0x25000000, 0xFFFFFFFF⟩,
   ⟨"BUS.READBYTES", 0x26000000, 0xFFFFFFFF⟩] ++
  [⟨"MEM.READ", 0x30000000, 0xFF0000FF⟩, ⟨"MEM.WRITE", 0x31000000, 0xFF000000⟩,
   ⟨"MEM.LOADSAMPLE", 0x32000000, 0xFFFFFFFF⟩, ⟨"MEM.DUMP", 0x33000000, 0xFF0000FF⟩]

/-- The mnemonic of an operation (R70, R73). -/
def Instr.mnemonic (i : Instr) : String :=
  match i with
  | .srInit => "SR.INIT"
  | .srSet _ => "SR.SET"
  | .srClr _ => "SR.CLR"
  | .srTest _ => "SR.TEST"
  | .srRead => "SR.READ"
  | .busInit => "BUS.INIT"
  | .busSet _ => "BUS.SET"
  | .busClr _ => "BUS.CLR"
  | .busRepack _ => "BUS.REPACK"
  | .busSplit _ => "BUS.SPLIT"
  | .busRead => "BUS.READ"
  | .busReadBytes => "BUS.READBYTES"
  | .memRead _ => "MEM.READ"
  | .memWrite _ _ => "MEM.WRITE"
  | .memLoadSample => "MEM.LOADSAMPLE"
  | .memDump _ => "MEM.DUMP"

/-- The command word whose bits are the low `nbits` bits of `w`, the bits above them zero. The table numbers bits as
the spec numbers the command word's (R11, R71), and the spec gives a command word no bytes in any memory (N3), so no
byte order enters (log entry 7, DESIGN CHOICE, safe). -/
def tableWord (nbits w : Nat) : Command := BitVec.ofNat 32 (w % 2 ^ nbits)

/-- The operation the decoder reads from a word numbered as spec/opcode_table.json numbers it. -/
def decodeTableWord (nbits w : Nat) : Option Instr := (decode (tableWord nbits w)).toOption

end Sys2Proof
end

