-- ==== Sys2Proof/Machine/Requests.lean ====
section
/-!
DEFINITION. Taking the next request (R6, R74, R215), which stands here for fetching an instruction's bytes: the block
has no program counter and fetches nothing from memory (R22, R52).
-/

namespace Sys2Proof.Machine

/-- The operation a request asks for, or the error of its command word (R74, R203). -/
def Request.resolve (r : Request) : Except CallerError Instr :=
  match r with
  | .op i => .ok i
  | .word w =>
    match decode w with
    | .ok i => .ok i
    | .error (.illegalCommand w') => .error (.illegalCommand w')

/-- The state in which a request is performed: it has left the stream, `rest` stays. -/
def State.take (s : State) (rest : List Request) : State := { s with requests := rest }

/-- The requester issues `r` as the next request. -/
def State.issue (s : State) (r : Request) : State := { s with requests := r :: s.requests }

end Sys2Proof.Machine
end

