-- ==== Sys2Proof/Machine/Step.lean ====
section
/-!
DEFINITION. One step of the machine: take the next request, perform it completely, give its one response (R6, R15, R56).
-/

namespace Sys2Proof.Machine

/-- R208: decoding comes first, then the operation's own check. With no request outstanding nothing happens
(log entry 3, DESIGN CHOICE, safe). -/
def step (s : State) : Host.Outcome State Fault Refusal :=
  match s.requests with
  | [] => .next s
  | r :: rest =>
    match r.resolve with
    | .ok i => exec i (s.take rest)
    | .error e => raise e (s.take rest)

/-- The requester issues the command word next: the place `step` takes its next instruction from is the front of
`requests` (log entries 1 and 7). -/
def State.withFetchWord (s : State) (nbits w : Nat) : State := s.issue (.word (tableWord nbits w))

end Sys2Proof.Machine
end

