-- ==== Sys2Proof/Machine/Assembler.lean ====
section
/-!
DEFINITION. The notation for request streams (R80) with the flag names of a position (R81). The notation is the spec's
own (D25); no machine state depends on it. What R80 leaves open about a line is log entry 9 (DESIGN CHOICE, safe).
-/

namespace Sys2Proof.Machine

/-- The one-letter name of a flag (R19, R81). -/
def Flag.letter (f : Flag) : Char :=
  match f with
  | .carry => 'C'
  | .zero => 'Z'
  | .interruptDisable => 'I'
  | .decimal => 'D'
  | .brk => 'B'
  | .unused => 'U'
  | .overflow => 'V'
  | .sign => 'S'

/-- The flag that a letter names (R81). -/
def flagOfLetter (c : Char) : Option Flag :=
  [Flag.carry, .zero, .interruptDisable, .decimal, .brk, .unused, .overflow, .sign].find? (fun f => f.letter = c)

/-- The value of a digit in base 16: `0` to `9`, `a` to `f`, `A` to `F`. -/
def digitValue (c : Char) : Option Nat :=
  let n := c.toNat
  if 48 ≤ n ∧ n ≤ 57 then some (n - 48)
  else if 97 ≤ n ∧ n ≤ 102 then some (n - 87)
  else if 65 ≤ n ∧ n ≤ 70 then some (n - 55)
  else none

/-- The number that the digits spell in the base, read after the value `acc`; nothing if one is no digit of it. -/
def digitsValue (base acc : Nat) (cs : List Char) : Option Nat :=
  match cs with
  | [] => some acc
  | c :: rest => (digitValue c).bind fun d => if d < base then digitsValue base (acc * base + d) rest else none

/-- A number (R80): "Numbers are decimal (`15`) or hexadecimal with `0x` (`0x1000`)." -/
def parseNumber (cs : List Char) : Option Nat :=
  match cs with
  | [] => none
  | '0' :: 'x' :: [] => none
  | '0' :: 'x' :: d :: rest => digitsValue 16 0 (d :: rest)
  | c :: rest => digitsValue 10 0 (c :: rest)

/-- The position of SR.SET, SR.CLR and SR.TEST: a number, or a flag's letter (R81). -/
def parseFlagPos (cs : List Char) : Option Nat :=
  match cs with
  | [c] => ((flagOfLetter c).map Flag.bit).or (parseNumber [c])
  | _ => parseNumber cs

/-- A number that must fit `n` bits. -/
def parseBits (n : Nat) (cs : List Char) : Option (BitVec n) :=
  (parseNumber cs).bind fun v => if v < 2 ^ n then some (BitVec.ofNat n v) else none

/-- Leading and trailing spaces removed. -/
def trimSpaces (cs : List Char) : List Char :=
  ((cs.dropWhile (· = ' ')).reverse.dropWhile (· = ' ')).reverse

/-- The fields between the commas, each without its outer spaces. `field` is the current one, reversed. -/
def splitFields (field : List Char) (cs : List Char) : List (List Char) :=
  match cs with
  | [] => [trimSpaces field.reverse]
  | ',' :: rest => trimSpaces field.reverse :: splitFields [] rest
  | c :: rest => splitFields (c :: field) rest

/-- The operand fields of a line's rest: none when it is blank. -/
def operandFields (cs : List Char) : List (List Char) :=
  if trimSpaces cs = [] then [] else splitFields [] cs

/-- The operation that a mnemonic and its operand fields spell (R73, R80). -/
def parseOp (mnemonic : String) (fields : List (List Char)) : Option Instr :=
  match mnemonic, fields with
  | "SR.INIT", [] => some .srInit
  | "SR.SET", [p] => (parseFlagPos p).map .srSet
  | "SR.CLR", [p] => (parseFlagPos p).map .srClr
  | "SR.TEST", [p] => (parseFlagPos p).map .srTest
  | "SR.READ", [] => some .srRead
  | "BUS.INIT", [] => some .busInit
  | "BUS.SET", [p] => (parseNumber p).map .busSet
  | "BUS.CLR", [p] => (parseNumber p).map .busClr
  | "BUS.REPACK", [x] => (parseBits 16 x).map .busRepack
  | "BUS.SPLIT", [x] => (parseBits 16 x).map .busSplit
  | "BUS.READ", [] => some .busRead
  | "BUS.READBYTES", [] => some .busReadBytes
  | "MEM.READ", [a] => (parseNumber a).map .memRead
  | "MEM.WRITE", [a, v] => (parseNumber a).bind fun a => (parseBits 8 v).map (.memWrite a)
  | "MEM.LOADSAMPLE", [] => some .memLoadSample
  | "MEM.DUMP", [n] => (parseNumber n).map .memDump
  | _, _ => none

/-- One request of a line (R80): the mnemonic, its operands, then an optional comment after `;`. -/
def parseLine (line : String) : Option Instr :=
  let text := (line.toList.takeWhile (· ≠ ';')).dropWhile (· = ' ')
  parseOp (String.ofList (text.takeWhile (· ≠ ' '))) (operandFields (text.dropWhile (· ≠ ' ')))

/-- The command word of a line, where its operation has one (R79). -/
def assemble (line : String) : Option Command :=
  (parseLine line).bind fun i => if i.wellFormed then some (encode i) else none

/-- An upper-case hexadecimal digit, as the listings of spec/95_test_vectors.md write command words. -/
def upperDigit (d : BitVec 4) : Char := "0123456789ABCDEF".toList.getD d.toNat '0'

/-- A command word in the form of R71: `0x` and eight hexadecimal digits, most significant first. -/
def commandText (w : Command) : List Char :=
  ['0', 'x'] ++ [28, 24, 20, 16, 12, 8, 4, 0].map fun k => upperDigit (w.extractLsb' k 4)

/-- A line of a listing (R80): the command word before the line. -/
def listing (line : String) : Option String :=
  (assemble line).map fun w => String.ofList (commandText w ++ [' ', ' '] ++ line.toList)

end Sys2Proof.Machine
end

