-- ==== Sys2Proof/Safety.lean ====
section
/-!
DEFINITION. What a safe state and a safe run are, and the vocabulary that claims about whole families and request
streams use.
-/

namespace Sys2Proof

/-- A StatusRegister operation (R120). -/
def Instr.isSr (i : Instr) : Bool :=
  match i with
  | .srInit | .srSet _ | .srClr _ | .srTest _ | .srRead => true
  | .busInit | .busSet _ | .busClr _ | .busRepack _ | .busSplit _ | .busRead | .busReadBytes => false
  | .memRead _ | .memWrite _ _ | .memLoadSample | .memDump _ => false

/-- An AddressBus operation (R140). -/
def Instr.isBus (i : Instr) : Bool :=
  match i with
  | .srInit | .srSet _ | .srClr _ | .srTest _ | .srRead => false
  | .busInit | .busSet _ | .busClr _ | .busRepack _ | .busSplit _ | .busRead | .busReadBytes => true
  | .memRead _ | .memWrite _ _ | .memLoadSample | .memDump _ => false

/-- A Memory operation (R170). -/
def Instr.isMem (i : Instr) : Bool :=
  match i with
  | .srInit | .srSet _ | .srClr _ | .srTest _ | .srRead => false
  | .busInit | .busSet _ | .busClr _ | .busRepack _ | .busSplit _ | .busRead | .busReadBytes => false
  | .memRead _ | .memWrite _ _ | .memLoadSample | .memDump _ => true

namespace Machine

/-- The invariant of the machine: memory keeps its canonical form (log entry 5), and the upper byte of `SR` is `0xFF`
(R28: "after reset `SR[15:8] = 0xFF` holds in every reachable state"). -/
def State.Inv (s : State) : Prop := s.mem.wf = true ∧ s.sr.extractLsb' 8 8 = 0xFF#8

/-- The byte that performing the operation leaves at address `a`, where it writes that cell (R55). -/
def byteWritten (i : Instr) (a : Nat) : Option Byte :=
  match i with
  | .memWrite b v => if a = b ∧ b ≤ 0xFFFF then some v else none
  | .memLoadSample => sample[a]?
  | .srInit | .srSet _ | .srClr _ | .srTest _ | .srRead => none
  | .busInit | .busSet _ | .busClr _ | .busRepack _ | .busSplit _ | .busRead | .busReadBytes => none
  | .memRead _ | .memDump _ => none

/-- The byte that a request leaves at address `a`, where it writes that cell. -/
def Request.byteWritten (r : Request) (a : Nat) : Option Byte :=
  match r.resolve with
  | .ok i => Machine.byteWritten i a
  | .error _ => none

/-- The last byte that a request stream leaves at address `a`, which held `before` (R60). -/
def lastWrite (before : Byte) (a : Nat) (requests : List Request) : Byte :=
  requests.foldl (fun held r => (r.byteWritten a).getD held) before

/-- The run that performs a request stream from `s`, one step for each request (R215). -/
def perform (s : State) (requests : List Request) : Host.Outcome State Fault Refusal :=
  Sys2Proof.core.run requests.length { s with requests := requests }

end Machine

end Sys2Proof
end

