-- ==== Sys2Proof/Certificates/Slice0/Obligations.lean ====
section
/-!
DEFINITION. The statements for the provers. A clause that rests on a rule the spec tags `[decision: ...]` or
`[derived: ...]`, or on an entry of the model's log, is in a statement whose basis is derived, and its docstring says
which. Results are written out with the spec's formulas, not with the model's own helpers.
-/

open Sys2Proof Sys2Proof.Machine

/-! ### Reset -/

/-- R27, R30, R36: what reset leaves in `SR`, its flags and upper byte, in `BV` and in every cell. -/
def Obligations.ResetRegistersAndMemory : Prop :=
  State.reset.sr = 0xFF00#16 ∧ (∀ f : Flag, State.reset.sr.getLsbD f.bit = false) ∧
    State.reset.sr.extractLsb' 8 8 = 0xFF#8 ∧ State.reset.bv = 0x1000#16 ∧
    ∀ (a : Nat), a ≤ 0xFFFF → State.reset.mem.read a = 0x00#8

/-- R33 (the spec's decision D13): after reset the latch is `Unwritten`, and BUS.READBYTES answers `UnwrittenLatch`.
R230: no request is outstanding. That no reply has been given is the model's choice (log entry 2). -/
def Obligations.ResetLatchIsUnwritten : Prop :=
  State.reset.bb = .unwritten ∧ State.reset.requests = [] ∧ State.reset.replies = [] ∧
    exec .busReadBytes State.reset = .next { State.reset with replies := [.error .unwrittenLatch] }

/-- The reset state meets the invariant of `StepKeepsTheInvariant`. -/
def Obligations.ResetMeetsTheInvariant : Prop := State.reset.Inv

/-! ### Status register -/

/-- SR.INIT (R121; that it writes the register is the spec's decision D31). -/
def Obligations.SrInitWritesAndAnswersFF00 : Prop :=
  ∀ (s : State), exec .srInit s = .next { s with sr := 0xFF00#16, replies := s.replies ++ [.done (.word 0xFF00#16)] }

/-- SR.SET and SR.CLR at a flag (R123, R125, R124; the spec's decisions D5, D6, D7). -/
def Obligations.SrSetAndClrWriteOneFlag : Prop :=
  ∀ (s : State) (pos : Nat), pos < 8 →
    exec (.srSet pos) s = .next { s with
      sr := s.sr ||| (1#16 <<< pos), replies := s.replies ++ [.done (.word (s.sr ||| (1#16 <<< pos)))] } ∧
    exec (.srClr pos) s = .next { s with
      sr := s.sr &&& ~~~(1#16 <<< pos), replies := s.replies ++ [.done (.word (s.sr &&& ~~~(1#16 <<< pos)))] }

/-- SR.TEST at a flag and SR.READ (R127, R129; the spec's decisions D5, D6, D8). -/
def Obligations.SrTestAndReadAnswerTheRegister : Prop :=
  (∀ (s : State) (pos : Nat), pos < 8 →
    exec (.srTest pos) s = .next { s with replies := s.replies ++ [.done (.bit (s.sr.getLsbD pos))] }) ∧
  ∀ (s : State), exec .srRead s = .next { s with replies := s.replies ++ [.done (.word s.sr)] }

/-- The Unused flag is an ordinary bit, and no operation but SR.SET 5 makes it 1 (R25). What SR.SET and SR.CLR answer is
the spec's decision D7 (R124); that SR.INIT writes the register is D31. -/
def Obligations.UnusedFlagIsAnOrdinaryBit : Prop :=
  ∀ (s : State), (∃ t, exec .srInit s = .next t ∧ t.sr.getLsbD 5 = false) ∧
    exec (.srSet 5) s = .next { s with
      sr := s.sr ||| 0x0020#16, replies := s.replies ++ [.done (.word (s.sr ||| 0x0020#16))] } ∧
    exec (.srClr 5) s = .next { s with
      sr := s.sr &&& 0xFFDF#16, replies := s.replies ++ [.done (.word (s.sr &&& 0xFFDF#16))] } ∧
    exec (.srTest 5) s = .next { s with replies := s.replies ++ [.done (.bit (s.sr.getLsbD 5))] } ∧
    ∀ (i : Instr) (t : State), i ≠ .srSet 5 → exec i s = .next t → t.sr.getLsbD 5 = true → s.sr.getLsbD 5 = true

/-- R26: only SR.INIT, SR.SET and SR.CLR write `SR`; bus and memory operations neither read nor write it; and no flag
controls what any operation does to the rest of the state or whether it succeeds. -/
def Obligations.OnlySrOperationsTouchTheFlags : Prop :=
  (∀ (i : Instr) (s t : State), exec i s = .next t →
    i ≠ .srInit → (∀ (p : Nat), i ≠ .srSet p) → (∀ (p : Nat), i ≠ .srClr p) → t.sr = s.sr) ∧
  (∀ (i : Instr) (s t : State) (v : Word), i.isSr = false → exec i s = .next t →
    exec i { s with sr := v } = .next { t with sr := v }) ∧
  ∀ (i : Instr) (s t u : State) (v : Word), exec i s = .next t → exec i { s with sr := v } = .next u →
    u.bv = t.bv ∧ u.bb = t.bb ∧ u.mem = t.mem ∧ u.requests = t.requests ∧
    ((∃ r, t.replies = s.replies ++ [.done r]) ↔ ∃ r, u.replies = s.replies ++ [.done r])

/-- The laws of the flag operations over two requests (R130, derived in the spec). -/
def Obligations.FlagOperationLaws : Prop :=
  ∀ (s : State) (p : Nat), p < 8 →
    (∃ t u, exec (.srSet p) s = .next t ∧ exec (.srTest p) t = .next u ∧
      u.replies = t.replies ++ [.done (.bit true)]) ∧
    (∃ t u, exec (.srClr p) s = .next t ∧ exec (.srTest p) t = .next u ∧
      u.replies = t.replies ++ [.done (.bit false)]) ∧
    (∀ f ∈ [Instr.srSet, Instr.srClr], ∃ t u, exec (f p) s = .next t ∧ exec (f p) t = .next u ∧
      u = { t with replies := u.replies }) ∧
    ∀ (q : Nat), q < 8 → q ≠ p → ∀ f ∈ [Instr.srSet, Instr.srClr], ∀ g ∈ [Instr.srSet, Instr.srClr],
      ∃ t u t' u', exec (f p) s = .next t ∧ exec (g q) t = .next u ∧ exec (g q) s = .next t' ∧
        exec (f p) t' = .next u' ∧ u.sr = u'.sr

/-! ### BitOps -/

/-- R102, R103, R104: the three primitives, at every storage width `n` and declared width `w`. -/
def Obligations.BitPrimitivesActOnOneBit : Prop :=
  (∀ (n w : Nat) (v : BitVec n) (pos : Nat), w ≤ n → pos < w →
    setBit v pos = v ||| (1#n <<< pos) ∧ clearBit v pos = v &&& ~~~(1#n <<< pos) ∧
    (isBitSet v pos = true ↔ v.getLsbD pos = true) ∧
    (setBit v pos).getLsbD pos = true ∧ (clearBit v pos).getLsbD pos = false ∧
    (∀ q, q ≠ pos → (setBit v pos).getLsbD q = v.getLsbD q ∧ (clearBit v pos).getLsbD q = v.getLsbD q) ∧
    (v.getLsbD pos = true → setBit v pos = v) ∧ (v.getLsbD pos = false → clearBit v pos = v)) ∧
  setBit 0xFF00#16 1 = 0xFF02#16 ∧ clearBit 0xFF02#16 1 = 0xFF00#16 ∧ isBitSet 0xFF02#16 1 = true ∧
  isBitSet 0xFF00#16 1 = false

/-- R105: the source's testable properties of the primitives. -/
def Obligations.BitPrimitiveLaws : Prop :=
  ∀ (n w : Nat) (v : BitVec n) (p : Nat), w ≤ n → p < w →
    isBitSet (setBit v p) p = true ∧ isBitSet (clearBit v p) p = false ∧
    setBit (setBit v p) p = setBit v p ∧ clearBit (clearBit v p) p = clearBit v p ∧
    ∀ q, q < w → p ≠ q →
      setBit (setBit v p) q = setBit (setBit v q) p ∧ clearBit (clearBit v p) q = clearBit (clearBit v q) p ∧
      setBit (clearBit v p) q = clearBit (setBit v q) p

/-- A position is rejected exactly when it is not below the declared width, 8 for `SR` and 16 for `BV` (R201). That
nothing but the reply changes is the spec's decision D18 (R205) and D5 (R101), the recorded position D4 (R200). -/
def Obligations.PositionsAreCheckedAgainstTheDeclaredWidth : Prop :=
  (∀ (s : State) (pos : Nat), ∀ i ∈ [Instr.srSet pos, .srClr pos, .srTest pos],
    (8 ≤ pos → exec i s = .next { s with replies := s.replies ++ [.error (.invalidBitPosition pos)] }) ∧
    (pos < 8 → ∃ t r, exec i s = .next t ∧ t.replies = s.replies ++ [.done r])) ∧
  ∀ (s : State) (pos : Nat), ∀ i ∈ [Instr.busSet pos, .busClr pos],
    (16 ≤ pos → exec i s = .next { s with replies := s.replies ++ [.error (.invalidBitPosition pos)] }) ∧
    (pos < 16 → ∃ t r, exec i s = .next t ∧ t.replies = s.replies ++ [.done r])

/-! ### Address bus -/

/-- BUS.INIT (R141; the spec's decisions D14 and D31): `BB` is unchanged. -/
def Obligations.BusInitWritesAndAnswers1000 : Prop :=
  ∀ (s : State), exec .busInit s = .next { s with bv := 0x1000#16, replies := s.replies ++ [.done (.word 0x1000#16)] }

/-- BUS.SET and BUS.CLR at an address line (R143, R145, R146; the spec's decisions D5, D7, D14). -/
def Obligations.BusSetAndClrWriteOneLine : Prop :=
  ∀ (s : State) (pos : Nat), pos < 16 →
    exec (.busSet pos) s = .next { s with
      bv := s.bv ||| (1#16 <<< pos), replies := s.replies ++ [.done (.word (s.bv ||| (1#16 <<< pos)))] } ∧
    exec (.busClr pos) s = .next { s with
      bv := s.bv &&& ~~~(1#16 <<< pos), replies := s.replies ++ [.done (.word (s.bv &&& ~~~(1#16 <<< pos)))] }

/-- BUS.REPACK and BUS.READ (R148, R149, R156; the spec's decisions D8, D9). -/
def Obligations.RepackWritesTheSwappedOperand : Prop :=
  (∀ (s : State) (x : Word), exec (.busRepack x) s = .next { s with
    bv := x.extractLsb' 0 8 ++ x.extractLsb' 8 8,
    replies := s.replies ++ [.done (.word (x.extractLsb' 0 8 ++ x.extractLsb' 8 8))] }) ∧
  ∀ (s : State), exec .busRead s = .next { s with replies := s.replies ++ [.done (.word s.bv)] }

/-- R147: the byte swap and its contract. -/
def Obligations.ByteSwapIsSelfInverse : Prop :=
  (∀ x : Word, swap16 x = x.extractLsb' 0 8 ++ x.extractLsb' 8 8 ∧
    (swap16 x).extractLsb' 8 8 = x.extractLsb' 0 8 ∧ (swap16 x).extractLsb' 0 8 = x.extractLsb' 8 8 ∧
    swap16 (swap16 x) = x) ∧
  swap16 0x1000#16 = 0x0010#16

/-- BUS.SPLIT in the block's own mode, and in each mode (R152, R154, R155; the spec's decisions D10, D11, D12): both
slots are written from the operand, `BV` is not, and the answer is the pair (`lo`, `hi`). -/
def Obligations.SplitWritesTheLatch : Prop :=
  (∀ (s : State) (x : Word), exec (.busSplit x) s = .next (match Config.splitMode with
    | .invariant => { s with
        bb := .written (x.extractLsb' 0 8) (x.extractLsb' 8 8),
        replies := s.replies ++ [.done (.pair (x.extractLsb' 0 8) (x.extractLsb' 8 8))] }
    | .sourceSwapped => { s with
        bb := .written (x.extractLsb' 8 8) (x.extractLsb' 0 8),
        replies := s.replies ++ [.done (.pair (x.extractLsb' 8 8) (x.extractLsb' 0 8))] })) ∧
  (∀ (s : State) (x : Word), execBusSplitIn .invariant x s = .next { s with
    bb := .written (x.extractLsb' 0 8) (x.extractLsb' 8 8),
    replies := s.replies ++ [.done (.pair (x.extractLsb' 0 8) (x.extractLsb' 8 8))] }) ∧
  ∀ (s : State) (x : Word), execBusSplitIn .sourceSwapped x s = .next { s with
    bb := .written (x.extractLsb' 8 8) (x.extractLsb' 0 8),
    replies := s.replies ++ [.done (.pair (x.extractLsb' 8 8) (x.extractLsb' 0 8))] }

/-- The two modes give the same outcome exactly when the operand's bytes are equal (R152, R154; D11, D12). -/
def Obligations.SplitModesDifferOnUnequalBytes : Prop :=
  ∀ (s : State) (x : Word),
    (∃ t, execBusSplitIn .invariant x s = .next t ∧ execBusSplitIn .sourceSwapped x s = .next t) ↔
      x.extractLsb' 0 8 = x.extractLsb' 8 8

/-- When the latch is the split of `BV` after a BUS.SPLIT (R32, derived in the spec from R31 and R152): in mode
INVARIANT exactly when the operand is `BV`. In mode SOURCE_SWAPPED it is so exactly when `BV` is the swapped operand;
R32's words leave that case out, and the model follows R152 (log entry 10, DEDUCED). -/
def Obligations.LatchIsTheSplitOfTheBusOnlyByChance : Prop :=
  ∀ (s : State) (x : Word),
    (∃ t, execBusSplitIn .invariant x s = .next t ∧
      (t.bb = .written (t.bv.extractLsb' 0 8) (t.bv.extractLsb' 8 8) ↔ x = s.bv)) ∧
    ∃ t, execBusSplitIn .sourceSwapped x s = .next t ∧
      (t.bb = .written (t.bv.extractLsb' 0 8) (t.bv.extractLsb' 8 8) ↔
        s.bv = x.extractLsb' 0 8 ++ x.extractLsb' 8 8)

/-- BUS.READBYTES (R158; the spec's decisions D8, D13), with the latch written and unwritten. -/
def Obligations.ReadBytesAnswersTheLatch : Prop :=
  (∀ (s : State) (lo hi : Byte), s.bb = .written lo hi →
    exec .busReadBytes s = .next { s with replies := s.replies ++ [.done (.pair lo hi)] }) ∧
  ∀ (s : State), s.bb = .unwritten →
    exec .busReadBytes s = .next { s with replies := s.replies ++ [.error .unwrittenLatch] }

/-- Only BUS.SPLIT writes `BB` (R31; D10, D12, D14), and no step makes it `Unwritten` again (R232; D20). -/
def Obligations.OnlySplitWritesTheLatch : Prop :=
  (∀ (i : Instr) (s t : State), exec i s = .next t → (∀ (x : Word), i ≠ .busSplit x) → t.bb = s.bb) ∧
  ∀ (s t : State), step s = .next t → s.bb ≠ .unwritten → t.bb ≠ .unwritten

/-- BUS.READBYTES after BUS.SPLIT answers the pair BUS.SPLIT answered, until the next BUS.SPLIT (R159, derived in the
spec): whatever other requests come in between. -/
def Obligations.ReadBytesAnswersTheLastSplit : Prop :=
  ∀ (s : State) (x : Word), ∃ t lo hi, exec (.busSplit x) s = .next t ∧
    t.replies = s.replies ++ [.done (.pair lo hi)] ∧
    ∀ (between : List Request) (u : State), (∀ r ∈ between, ∀ y, r.resolve ≠ .ok (.busSplit y)) →
      perform t between = .next u →
      exec .busReadBytes u = .next { u with replies := u.replies ++ [.done (.pair lo hi)] }

/-! ### Memory -/

/-- MEM.READ of a valid address (R171; the spec's decisions D15, D16). -/
def Obligations.MemReadAnswersTheCell : Prop :=
  ∀ (s : State) (a : Nat), a ≤ 0xFFFF →
    exec (.memRead a) s = .next { s with replies := s.replies ++ [.done (.byte (s.mem.read a))] }

/-- MEM.WRITE of a valid address (R174, R175; the spec's decisions D4, D15): one cell and the reply change, nothing
else. The premise is the model's canonical form (log entry 5), which every step keeps. -/
def Obligations.MemWriteStoresOneCell : Prop :=
  ∀ (s : State) (a : Nat) (v : Byte), s.mem.wf = true → a ≤ 0xFFFF → ∃ t, exec (.memWrite a v) s = .next t ∧
    t = { s with mem := t.mem, replies := s.replies ++ [.done .none] } ∧ t.mem.read a = v ∧
    ∀ (b : Nat), b ≠ a → t.mem.read b = s.mem.read b

/-- R172, R202: an address is valid exactly when it is at most `0xFFFF`; an invalid one is answered `InvalidAddress`
with nothing written; no command word can reach that error. A dump names its highest address (R192, which R202 names:
the exact address is in `DumpTextLayout`). -/
def Obligations.AddressesAreChecked : Prop :=
  (∀ (s : State) (a : Nat) (v : Byte), ∀ i ∈ [Instr.memRead a, .memWrite a v],
    (0xFFFF < a → exec i s = .next { s with replies := s.replies ++ [.error (.invalidAddress a)] }) ∧
    (a ≤ 0xFFFF → ∃ t r, exec i s = .next t ∧ t.replies = s.replies ++ [.done r])) ∧
  (∀ (s : State) (n : Nat), (0x10000 < n → ∃ a, 0xFFFF < a ∧
      exec (.memDump n) s = .next { s with replies := s.replies ++ [.error (.invalidAddress a)] }) ∧
    (n ≤ 0x10000 → ∃ t r, exec (.memDump n) s = .next t ∧ t.replies = s.replies ++ [.done r])) ∧
  ∀ (w : Command) (i : Instr) (s t : State) (a : Nat), decode w = .ok i → exec i s = .next t →
    t.replies ≠ s.replies ++ [.error (.invalidAddress a)]

/-- Every one of the 65536 cells can be written and read back, without a side effect on any other state, and beyond the
last address there is no cell (R34, R172). That MEM.WRITE answers no result is the spec's decision D4 (R175); D15. -/
def Obligations.EveryCellIsReadableAndWritable : Prop :=
  ∀ (s : State) (v : Byte), s.mem.wf = true →
    (∀ (a : Nat), a ≤ 0xFFFF → ∃ t u, exec (.memWrite a v) s = .next t ∧ exec (.memRead a) t = .next u ∧
      u = { s with mem := t.mem, replies := s.replies ++ [.done .none, .done (.byte v)] } ∧
      ∀ (b : Nat), b ≠ a → t.mem.read b = s.mem.read b) ∧
    ∀ (a : Nat), 0xFFFF < a → ∃ t e, exec (.memRead a) s = .next t ∧ t.replies = s.replies ++ [.error e]

/-- The laws of reads and writes (R176, derived in the spec). -/
def Obligations.MemoryReadWriteLaws : Prop :=
  ∀ (s : State) (a b : Nat) (v w : Byte), s.mem.wf = true → a ≤ 0xFFFF → b ≤ 0xFFFF → a ≠ b →
    (∃ t u, exec (.memWrite a v) s = .next t ∧ exec (.memRead a) t = .next u ∧
      u.replies = t.replies ++ [.done (.byte v)]) ∧
    (∃ t u t', exec (.memWrite a v) s = .next t ∧ exec (.memWrite a w) t = .next u ∧
      exec (.memWrite a w) s = .next t' ∧ u.mem = t'.mem) ∧
    ∃ t u t', exec (.memWrite a v) s = .next t ∧ exec (.memWrite b w) t = .next u ∧
      exec (.memWrite b w) s = .next t' ∧ exec (.memWrite a v) t' = .next u

/-- Only MEM.WRITE and MEM.LOADSAMPLE change `M` (R176, derived in the spec). -/
def Obligations.OnlyWriteAndLoadSampleChangeMemory : Prop :=
  ∀ (i : Instr) (s t : State), exec i s = .next t →
    (∀ (a : Nat) (v : Byte), i ≠ .memWrite a v) → i ≠ .memLoadSample → t.mem = s.mem

/-- R180: the 32 bytes that MEM.LOADSAMPLE leaves at offsets `0x00` to `0x1F`. -/
def Obligations.SampleBytesAfterLoadSample : Prop :=
  ∀ (s : State), s.mem.wf = true → ∃ t, exec .memLoadSample s = .next t ∧
    (List.range 16).map (fun i => t.mem.read i) =
      [0xa9, 0x00, 0x20, 0x10, 0x00, 0x4c, 0x02, 0x00, 0x00, 0x00, 0x00, 0x00, 0x00, 0x00, 0x00, 0x40] ∧
    (List.range 16).map (fun i => t.mem.read (16 + i)) =
      [0xe8, 0x00, 0x20, 0x10, 0x00, 0x4c, 0x02, 0x00, 0x00, 0x00, 0x00, 0x00, 0x00, 0x00, 0x00, 0x40]

/-- MEM.LOADSAMPLE changes nothing but those 32 cells and the reply, and twice is as once (R188; the spec's decisions
D26, D29). -/
def Obligations.LoadSampleChangesOnlyItsCells : Prop :=
  ∀ (s : State), s.mem.wf = true → ∃ t u, exec .memLoadSample s = .next t ∧
    t = { s with mem := t.mem, replies := s.replies ++ [.done .none] } ∧
    (∀ (a : Nat), 0x001F < a → t.mem.read a = s.mem.read a) ∧
    exec .memLoadSample t = .next u ∧ u.mem = t.mem

/-- `hex2` is the digit of the high nibble, then that of the low one, lower case (R190); and a dump's text holds no
characters but those digits, spaces and the label's colon (R191, R192; the spec's decision D17). -/
def Obligations.HexDigitsOfAByte : Prop :=
  (∀ v : Byte, hex2 v = ["0123456789abcdef".toList.getD (v.toNat / 16) ' ',
    "0123456789abcdef".toList.getD (v.toNat % 16) ' ']) ∧
  hex2 0x0A = ['0', 'a'] ∧ hex2 0xE8 = ['e', '8'] ∧
  ∀ (s : State) (n : Nat), n ≤ 0x10000 → ∃ (t : State) (text : String), exec (.memDump n) s = .next t ∧
    t.replies = s.replies ++ [.done (.text text)] ∧ ∀ c ∈ text.toList, c ∈ "0123456789abcdef :".toList

/-- MEM.DUMP (R189, R191, R192; the spec's decision D17): the label, then for each cell a space and its two digits, and
nothing else; beyond `0x10000` bytes the error names the highest address. Only the reply changes. -/
def Obligations.DumpTextLayout : Prop :=
  (∀ (s : State) (n : Nat), n ≤ 0x10000 → ∃ text : String,
    exec (.memDump n) s = .next { s with replies := s.replies ++ [.done (.text text)] } ∧
    text.toList.length = 5 + 3 * n ∧ text.toList.take 5 = ['0', '0', '0', '0', ':'] ∧
    ∀ (i : Nat), i < n → (text.toList.drop (5 + 3 * i)).take 3 =
      [' ', "0123456789abcdef".toList.getD ((s.mem.read i).toNat / 16) ' ',
        "0123456789abcdef".toList.getD ((s.mem.read i).toNat % 16) ' ']) ∧
  ∀ (s : State) (n : Nat), 0x10000 < n →
    exec (.memDump n) s = .next { s with replies := s.replies ++ [.error (.invalidAddress (n - 1))] }

/-- The source's dump property (R193, derived in the spec): the whole text after MEM.LOADSAMPLE. -/
def Obligations.DumpOfTheSample : Prop :=
  ∀ (s : State), s.mem.wf = true → ∃ t u, exec .memLoadSample s = .next t ∧ exec (.memDump 32) t = .next u ∧
    u.replies = s.replies ++ [.done .none, .done (.text ("0000: a9 00 20 10 00 4c 02 00 00 00 00 00 00 00 00 40 " ++
      "e8 00 20 10 00 4c 02 00 00 00 00 00 00 00 00 40"))]

/-- The operations that write nothing, on every operand, valid or not: at most the reply is added (R57, R127, R129,
R156, R158, R171, R189, R205; the spec's decisions D8, D16 for memory reads, and D18 for errors). -/
def Obligations.ReadingOperationsWriteNothing : Prop :=
  ∀ (s : State) (n : Nat), ∀ i ∈ [Instr.srTest n, .srRead, .busRead, .busReadBytes, .memRead n, .memDump n],
    ∃ t, exec i s = .next t ∧ t = { s with replies := t.replies }

/-! ### Independence -/

/-- R65: each family reads and writes only its own component. The other components keep their values, and with any
other values in them the outcome is the same but for those values. -/
def Obligations.ComponentsAreIndependent : Prop :=
  ∀ (i : Instr) (s : State),
    (i.isSr = true → ∀ (bv : Word) (bb : Latch) (m : Memory), ∃ t, exec i s = .next t ∧
      t.bv = s.bv ∧ t.bb = s.bb ∧ t.mem = s.mem ∧
      exec i { s with bv := bv, bb := bb, mem := m } = .next { t with bv := bv, bb := bb, mem := m }) ∧
    (i.isBus = true → ∀ (sr : Word) (m : Memory), ∃ t, exec i s = .next t ∧ t.sr = s.sr ∧ t.mem = s.mem ∧
      exec i { s with sr := sr, mem := m } = .next { t with sr := sr, mem := m }) ∧
    (i.isMem = true → ∀ (sr bv : Word) (bb : Latch), ∃ t, exec i s = .next t ∧
      t.sr = s.sr ∧ t.bv = s.bv ∧ t.bb = s.bb ∧
      exec i { s with sr := sr, bv := bv, bb := bb } = .next { t with sr := sr, bv := bv, bb := bb }) ∧
    (i.isSr || i.isBus || i.isMem) = true

/-! ### Errors -/

/-- An error writes no state, and its response has no result (R205; the spec's decision D18). -/
def Obligations.ErrorsWriteNoState : Prop :=
  ∀ (i : Instr) (s t : State) (e : CallerError), exec i s = .next t → t.replies = s.replies ++ [.error e] →
    t = { s with replies := s.replies ++ [.error e] } ∧ (Reply.error e).response = ⟨e.status, .none⟩

/-- Which operation can answer which error, and when (R200, R208; the spec's decisions D4, D19): one check for each. -/
def Obligations.EachOperationHasOneCheck : Prop :=
  ∀ (i : Instr) (s t : State) (e : CallerError), exec i s = .next t → t.replies = s.replies ++ [.error e] →
    match e with
    | .invalidBitPosition p =>
      ((i = .srSet p ∨ i = .srClr p ∨ i = .srTest p) ∧ 8 ≤ p) ∨ ((i = .busSet p ∨ i = .busClr p) ∧ 16 ≤ p)
    | .invalidAddress a =>
      (i = .memRead a ∨ (∃ v, i = .memWrite a v) ∨ i = .memDump (a + 1)) ∧ 0xFFFF < a
    | .illegalCommand _ => False
    | .unwrittenLatch => i = .busReadBytes ∧ s.bb = .unwritten

/-- The status codes and the response of a success (R16, R200; the spec's decision D4). -/
def Obligations.StatusCodesOfResponses : Prop :=
  (∀ (r : Result), (Reply.done r).response = ⟨.ok, r⟩) ∧ Status.ok.code = 0 ∧
  (∀ (p : Nat), (CallerError.invalidBitPosition p).status.code = 1) ∧
  (∀ (a : Nat), (CallerError.invalidAddress a).status.code = 2) ∧
  (∀ (w : Command), (CallerError.illegalCommand w).status.code = 3) ∧ CallerError.unwrittenLatch.status.code = 4

/-! ### Encoding -/

/-- Decoding the encoding of a well-formed operation gives it back, every operand at every value that fits its field
(R79, derived in the spec). -/
def Obligations.DecodeUndoesEncode : Prop :=
  ∀ i : Instr, i.wellFormed = true → decode (encode i) = .ok i

/-- Every word that decodes is the encoding of the well-formed operation it decodes to (R79, derived in the spec). -/
def Obligations.EncodeUndoesDecode : Prop :=
  ∀ (w : Command) (i : Instr), decode w = .ok i → i.wellFormed = true ∧ encode i = w

/-- The decoder and the opcode map agree (R73, R74, R77; the spec's decisions D2, D3): a word that a row selects
decodes to an operation of that row, at most one row selects a word, and a word that none selects is rejected. -/
def Obligations.DecoderAgreesWithTheOpcodeMap : Prop :=
  (∀ (w : Command), ∀ r ∈ opcodeTable, w &&& r.mask = r.pattern →
    ∃ i, decode w = .ok i ∧ i.mnemonic = r.mnemonic) ∧
  (∀ (w : Command), ∀ r ∈ opcodeTable, ∀ r' ∈ opcodeTable,
    w &&& r.mask = r.pattern → w &&& r'.mask = r'.pattern → r = r') ∧
  ∀ (w : Command), (∀ r ∈ opcodeTable, w &&& r.mask ≠ r.pattern) → decode w = .error (.illegalCommand w)

/-- The operands are read unchanged from their fields (R73, R75; the spec's decision D2): the words as numbers. -/
def Obligations.DecodeReadsOperandsUnchanged : Prop :=
  (∀ (pos : Nat), pos < 256 →
    decode (.ofNat 32 (0x11000000 + pos)) = .ok (.srSet pos) ∧
    decode (.ofNat 32 (0x12000000 + pos)) = .ok (.srClr pos) ∧
    decode (.ofNat 32 (0x13000000 + pos)) = .ok (.srTest pos) ∧
    decode (.ofNat 32 (0x21000000 + pos)) = .ok (.busSet pos) ∧
    decode (.ofNat 32 (0x22000000 + pos)) = .ok (.busClr pos)) ∧
  (∀ (a : Nat), a < 65536 →
    decode (.ofNat 32 (0x23000000 + a * 256)) = .ok (.busRepack (.ofNat 16 a)) ∧
    decode (.ofNat 32 (0x24000000 + a * 256)) = .ok (.busSplit (.ofNat 16 a)) ∧
    decode (.ofNat 32 (0x30000000 + a * 256)) = .ok (.memRead a) ∧
    decode (.ofNat 32 (0x33000000 + a * 256)) = .ok (.memDump a)) ∧
  ∀ (a v : Nat), a < 65536 → v < 256 →
    decode (.ofNat 32 (0x31000000 + a * 256 + v)) = .ok (.memWrite a (.ofNat 8 v))

/-- Some words of spec/95_test_vectors.md, section 2.5, and what they decode to (R74, R77). -/
def Obligations.DecodeOfWrittenWords : Prop :=
  decode 0x10000000 = .ok .srInit ∧ decode 0x11000001 = .ok (.srSet 1) ∧ decode 0x110000FF = .ok (.srSet 255) ∧
  decode 0x23100000 = .ok (.busRepack 0x1000) ∧ decode 0x26000000 = .ok .busReadBytes ∧
  decode 0x3100FFAB = .ok (.memWrite 0x00FF 0xAB) ∧ decode 0x32000000 = .ok .memLoadSample ∧
  decode 0x33FFFF00 = .ok (.memDump 65535) ∧ decode 0x11000100 = .error (.illegalCommand 0x11000100) ∧
  decode 0x10000001 = .error (.illegalCommand 0x10000001) ∧ decode 0x00000000 = .error (.illegalCommand 0x00000000)

/-- The flag names of a position (R81; the spec's decision D25): accepted by the SR operations, not by the bus's. -/
def Obligations.FlagNamesSpellPositions : Prop :=
  (∀ f : Flag, parseOp "SR.SET" [[f.letter]] = some (.srSet f.bit) ∧
    parseOp "SR.CLR" [[f.letter]] = some (.srClr f.bit) ∧ parseOp "SR.TEST" [[f.letter]] = some (.srTest f.bit) ∧
    parseOp "BUS.SET" [[f.letter]] = none ∧ parseOp "BUS.CLR" [[f.letter]] = none) ∧
  assemble "SR.SET Z" = some 0x11000001

/-! ### The machine -/

/-- What a step is: the next request's operation performed with the request taken from the stream (R6, R15, R74, R208;
the spec's decisions D1, D3); a word that spells no operation is answered `IllegalCommand` with nothing else changed.
That a step without a request changes nothing is the model's choice (log entry 3). -/
def Obligations.StepPerformsTheNextRequest : Prop :=
  (∀ (s : State) (w : Command) (rest : List Request) (i : Instr), s.requests = .word w :: rest →
    decode w = .ok i → step s = exec i { s with requests := rest }) ∧
  (∀ (s : State) (w : Command) (rest : List Request), s.requests = .word w :: rest →
    decode w = .error (.illegalCommand w) →
    step s = .next { s with requests := rest, replies := s.replies ++ [.error (.illegalCommand w)] }) ∧
  (∀ (s : State) (i : Instr) (rest : List Request), s.requests = .op i :: rest →
    step s = exec i { s with requests := rest }) ∧
  ∀ (s : State), s.requests = [] → step s = .next s

/-- A word put where the next step takes its instruction from is the one performed (log entry 7, the model's choice of
where that is). -/
def Obligations.StepAfterWithFetchWord : Prop :=
  ∀ (s : State) (w : Nat) (i : Instr), w < 2 ^ 32 → decodeTableWord 32 w = some i →
    step (s.withFetchWord 32 w) = exec i s

/-- Every request gets exactly one reply and leaves the rest of the stream as it is (R207, R215; the spec's decisions
D18, D21): no operation, failed or not, stops the machine or chooses the next request. -/
def Obligations.StepAnswersExactlyOneRequest : Prop :=
  ∀ (s : State) (r : Request) (rest : List Request), s.requests = r :: rest →
    ∃ t reply, step s = .next t ∧ t.requests = rest ∧ t.replies = s.replies ++ [reply]

/-- Every step keeps the invariant: memory stays canonical (log entry 5, the model's representation), and the upper
byte of `SR` stays `0xFF` (R28, derived in the spec). -/
def Obligations.StepKeepsTheInvariant : Prop :=
  ∀ (s t : State), s.Inv → step s = .next t → t.Inv

/-- A finite request stream is performed to its end from every state, with one reply for each request (R215, R238; the
spec's decision D21). -/
def Obligations.EveryStreamIsAnsweredToItsEnd : Prop :=
  ∀ (s : State) (requests : List Request), ∃ t replies, perform s requests = .next t ∧ t.requests = [] ∧
    t.replies = s.replies ++ replies ∧ replies.length = requests.length

/-- Memory is sequentially consistent (R60, derived in the spec from R56 and R36): after any request stream from any
canonical state, a cell holds the last byte the stream wrote there, or what it held before. -/
def Obligations.CellsHoldTheLastWrite : Prop :=
  ∀ (s : State) (requests : List Request) (t : State) (a : Nat), s.mem.wf = true → a ≤ 0xFFFF →
    perform s requests = .next t →
    t.mem.read a = lastWrite (s.mem.read a) a requests

/-- R230 (the spec's decision D20): writing zero to all 65536 cells, then SR.INIT, then BUS.INIT, gives the reset
values from every canonical state, but for the latch, which no operation can make `Unwritten` again. -/
def Obligations.ZeroingAndInitsRestoreTheResetValues : Prop :=
  ∀ (s : State), s.mem.wf = true → ∃ t,
    perform s ((List.range 0x10000).map (fun a => Request.op (.memWrite a 0x00)) ++ [.op .srInit, .op .busInit]) =
      .next t ∧
    t.sr = State.reset.sr ∧ t.bv = State.reset.bv ∧ t.mem = State.reset.mem ∧ t.bb = s.bb
end

