-- ==== Sys2Proof/Laws/BitOps.lean ====
section
/-!
SUPPORT. The BitOps primitives and the byte operations, bit by bit.
-/

namespace Sys2Proof.Machine

theorem getLsbD_oneBit {n : Nat} (p i : Nat) : (1#n <<< p).getLsbD i = (decide (i = p) && decide (i < n)) := by
  rw [Bool.eq_iff_iff]
  simp only [BitVec.getLsbD_shiftLeft, BitVec.getLsbD_one, Bool.and_eq_true, Bool.not_eq_true', decide_eq_true_eq,
    decide_eq_false_iff_not]
  omega

/-- Bit `i` after `setBit` at `p`. -/
@[simp] theorem getLsbD_setBit {n : Nat} (v : BitVec n) (p i : Nat) :
    (setBit v p).getLsbD i = (v.getLsbD i || (decide (i = p) && decide (i < n))) := by
  rw [setBit, BitVec.getLsbD_or, getLsbD_oneBit]

/-- Bit `i` after `clearBit` at `p`. -/
@[simp] theorem getLsbD_clearBit {n : Nat} (v : BitVec n) (p i : Nat) :
    (clearBit v p).getLsbD i = (v.getLsbD i && !decide (i = p)) := by
  rw [clearBit, BitVec.getLsbD_and, BitVec.getLsbD_not, getLsbD_oneBit]
  by_cases hi : i < n
  · simp [hi]
  · simp [BitVec.getLsbD_of_ge v i (by omega)]

@[simp] theorem getLsbD_lowByte (x : Word) (i : Nat) : (lowByte x).getLsbD i = (decide (i < 8) && x.getLsbD i) := by
  simp [lowByte]

@[simp] theorem getLsbD_highByte (x : Word) (i : Nat) :
    (highByte x).getLsbD i = (decide (i < 8) && x.getLsbD (8 + i)) := by
  simp [highByte]

/-- Bit `i` of two bytes put together, `hi` in the high part. -/
theorem getLsbD_bytes (hi lo : Byte) (i : Nat) :
    BitVec.getLsbD (w := 16) (hi ++ lo) i = if i < 8 then lo.getLsbD i else hi.getLsbD (i - 8) :=
  BitVec.getLsbD_append

/-- Two bytes put together have the bytes they were made of. -/
theorem lowByte_bytes (hi lo : Byte) : lowByte (hi ++ lo) = lo := by
  apply BitVec.eq_of_getLsbD_eq
  intro i h
  rw [getLsbD_lowByte, getLsbD_bytes]
  simp [h]

theorem highByte_bytes (hi lo : Byte) : highByte (hi ++ lo) = hi := by
  apply BitVec.eq_of_getLsbD_eq
  intro i h
  rw [getLsbD_highByte, getLsbD_bytes]
  simp [h]

/-- A word is its two bytes put together. -/
theorem bytes_of_word (x : Word) : (highByte x ++ lowByte x : Word) = x := by
  apply BitVec.eq_of_getLsbD_eq
  intro i h
  rw [getLsbD_bytes, getLsbD_lowByte, getLsbD_highByte]
  by_cases h8 : i < 8
  · simp [h8]
  · simp [h8, show i - 8 < 8 by omega, show 8 + (i - 8) = i by omega]

end Sys2Proof.Machine
end

