-- ==== Sys2Proof/Laws/Encoding.lean ====
section
/-!
SUPPORT. The fields of a packed word, and a word is its packed fields.
-/

namespace Sys2Proof

/-- Bit `i` of a packed word (R71). -/
theorem getLsbD_packWord (op : Byte) (a : Word) (b : Byte) (i : Nat) :
    (packWord op a b).getLsbD i =
      if i < 8 then b.getLsbD i else if i - 8 < 16 then a.getLsbD (i - 8) else op.getLsbD (i - 8 - 16) := by
  have h : (packWord op a b).getLsbD i = BitVec.getLsbD (op ++ a ++ b) i := rfl
  rw [h, BitVec.getLsbD_append, BitVec.getLsbD_append]

@[simp] theorem opField_packWord (op : Byte) (a : Word) (b : Byte) : opField (packWord op a b) = op := by
  apply BitVec.eq_of_getLsbD_eq
  intro i hi
  rw [opField, BitVec.getLsbD_extractLsb', getLsbD_packWord, if_neg (by omega), if_neg (by omega),
    show 24 + i - 8 - 16 = i by omega]
  simp [hi]

@[simp] theorem aField_packWord (op : Byte) (a : Word) (b : Byte) : aField (packWord op a b) = a := by
  apply BitVec.eq_of_getLsbD_eq
  intro i hi
  rw [aField, BitVec.getLsbD_extractLsb', getLsbD_packWord, if_neg (by omega), if_pos (by omega),
    show 8 + i - 8 = i by omega]
  simp [hi]

@[simp] theorem bField_packWord (op : Byte) (a : Word) (b : Byte) : bField (packWord op a b) = b := by
  apply BitVec.eq_of_getLsbD_eq
  intro i hi
  rw [bField, BitVec.getLsbD_extractLsb', getLsbD_packWord, if_pos (by omega), Nat.zero_add]
  simp [hi]

/-- A word is made of its three fields (R71). -/
theorem packWord_fields (w : Command) : packWord (opField w) (aField w) (bField w) = w := by
  apply BitVec.eq_of_getLsbD_eq
  intro i hi
  rw [getLsbD_packWord, opField, aField, bField, BitVec.getLsbD_extractLsb', BitVec.getLsbD_extractLsb',
    BitVec.getLsbD_extractLsb']
  split
  · simp [*]
  · split
    · simp [*, show 8 + (i - 8) = i by omega]
    · simp [show i - 8 - 16 < 8 by omega, show 24 + (i - 8 - 16) = i by omega]

/-- Packed words are equal exactly when their fields are. -/
theorem packWord_inj {op op' : Byte} {a a' : Word} {b b' : Byte} (h : packWord op a b = packWord op' a' b') :
    op = op' ∧ a = a' ∧ b = b' := by
  have h1 := congrArg opField h
  have h2 := congrArg aField h
  have h3 := congrArg bField h
  simp only [opField_packWord, aField_packWord, bField_packWord] at h1 h2 h3
  exact ⟨h1, h2, h3⟩

/-- Masking a packed word masks each field. -/
theorem packWord_and (op op' : Byte) (a a' : Word) (b b' : Byte) :
    packWord op a b &&& packWord op' a' b' = packWord (op &&& op') (a &&& a') (b &&& b') := by
  apply BitVec.eq_of_getLsbD_eq
  intro i _
  rw [BitVec.getLsbD_and, getLsbD_packWord, getLsbD_packWord, getLsbD_packWord]
  split
  · simp
  · split <;> simp

/-- A row selects a word exactly when the masked fields are the pattern's. -/
theorem selects_packWord {name : String} (op op' mo : Byte) (a a' ma : Word) (b b' mb : Byte) :
    OpcodeRow.selects ⟨name, packWord op' a' b', packWord mo ma mb⟩ (packWord op a b) = true ↔
      op &&& mo = op' ∧ a &&& ma = a' ∧ b &&& mb = b' := by
  rw [OpcodeRow.selects, beq_iff_eq, packWord_and]
  constructor
  · exact packWord_inj
  · rintro ⟨rfl, rfl, rfl⟩
    rfl

end Sys2Proof
end

