-- ==== Sys2Proof/Laws/Memory.lean ====
section
/-!
SUPPORT. Memory: reads after writes, the canonical form is kept, and equal reads of canonical memories are equal data.
-/

namespace Sys2Proof.Machine

theorem Memory.read_cell_append (a b : Nat) (v : Byte) (m : Memory) (h : m.read a = resetByte) :
    (Memory.cell a v ++ m).read b = if b = a then v else m.read b := by
  unfold Memory.cell
  split
  · subst v
    split
    · subst b; simpa using h
    · rfl
  · rfl

theorem Memory.wfFrom_mono {m : Memory} {low high : Nat} (hle : low ≤ high) (h : m.wfFrom high = true) :
    m.wfFrom low = true := by
  cases m with
  | nil => rfl
  | cons c rest =>
    obtain ⟨k, v⟩ := c
    simp only [Memory.wfFrom, Bool.and_eq_true, decide_eq_true_eq] at h ⊢
    exact ⟨⟨⟨by omega, h.1.1.2⟩, h.1.2⟩, h.2⟩

/-- Below its first possible address a canonical memory lists nothing. -/
theorem Memory.read_below {m : Memory} {low a : Nat} (h : m.wfFrom low = true) (ha : a < low) :
    m.read a = resetByte := by
  induction m generalizing low with
  | nil => rfl
  | cons c rest ih =>
    obtain ⟨k, v⟩ := c
    simp only [Memory.wfFrom, Bool.and_eq_true, decide_eq_true_eq] at h
    have hne : a ≠ k := by omega
    simpa only [Memory.read, if_neg hne] using ih h.2 (by omega)

/-- Above the address space a canonical memory lists nothing. -/
theorem Memory.read_above {m : Memory} {low a : Nat} (h : m.wfFrom low = true) (ha : 0xFFFF < a) :
    m.read a = resetByte := by
  induction m generalizing low with
  | nil => rfl
  | cons c rest ih =>
    obtain ⟨k, v⟩ := c
    simp only [Memory.wfFrom, Bool.and_eq_true, decide_eq_true_eq] at h
    have hne : a ≠ k := by omega
    simpa only [Memory.read, if_neg hne] using ih h.2

theorem Memory.read_write_from {m : Memory} {low : Nat} (h : m.wfFrom low = true) (a b : Nat) (v : Byte) :
    (m.write a v).read b = if b = a then v else m.read b := by
  induction m generalizing low with
  | nil => simpa only [Memory.write, List.append_nil] using Memory.read_cell_append a b v [] rfl
  | cons c rest ih =>
    obtain ⟨k, x⟩ := c
    have hwf := h
    simp only [Memory.wfFrom, Bool.and_eq_true, decide_eq_true_eq] at h
    unfold Memory.write
    split
    · refine Memory.read_cell_append a b v _ ?_
      have : Memory.wfFrom ((k, x) :: rest) k = true := by
        simp only [Memory.wfFrom, Bool.and_eq_true, decide_eq_true_eq]; exact ⟨⟨⟨le_refl k, h.1.1.2⟩, h.1.2⟩, h.2⟩
      exact Memory.read_below this ‹a < k›
    · split
      · subst a
        rw [Memory.read_cell_append k b v rest (Memory.read_below h.2 (by omega))]
        by_cases hb : b = k <;> simp [Memory.read, hb]
      · simp only [Memory.read]
        rw [ih h.2]
        by_cases hb : b = k
        · subst b
          have : k ≠ a := fun e => ‹¬a = k› e.symm
          simp [this]
        · simp [hb]

/-- A read after a write in a canonical memory: the written byte at its address, the old byte elsewhere. -/
theorem Memory.read_write {m : Memory} (h : m.wf = true) (a b : Nat) (v : Byte) :
    (m.write a v).read b = if b = a then v else m.read b := Memory.read_write_from h a b v

theorem Memory.wfFrom_cell_append {m : Memory} {low a : Nat} {v : Byte} (hlow : low ≤ a) (ha : a ≤ 0xFFFF)
    (h : m.wfFrom (a + 1) = true) : (Memory.cell a v ++ m).wfFrom low = true := by
  unfold Memory.cell
  split
  · exact Memory.wfFrom_mono (by omega) h
  · simp only [List.cons_append, List.nil_append, Memory.wfFrom, Bool.and_eq_true, decide_eq_true_eq]
    exact ⟨⟨⟨hlow, ha⟩, ‹_›⟩, h⟩

theorem Memory.wfFrom_write {m : Memory} {low a : Nat} {v : Byte} (h : m.wfFrom low = true) (hlow : low ≤ a)
    (ha : a ≤ 0xFFFF) : (m.write a v).wfFrom low = true := by
  induction m generalizing low with
  | nil => simpa only [Memory.write, List.append_nil] using Memory.wfFrom_cell_append (m := []) (v := v) hlow ha rfl
  | cons c rest ih =>
    obtain ⟨k, x⟩ := c
    simp only [Memory.wfFrom, Bool.and_eq_true, decide_eq_true_eq] at h
    unfold Memory.write
    split
    · refine Memory.wfFrom_cell_append hlow ha ?_
      simp only [Memory.wfFrom, Bool.and_eq_true, decide_eq_true_eq]
      exact ⟨⟨⟨by omega, h.1.1.2⟩, h.1.2⟩, h.2⟩
    · split
      · subst a; exact Memory.wfFrom_cell_append hlow ha h.2
      · simp only [Memory.wfFrom, Bool.and_eq_true, decide_eq_true_eq]
        exact ⟨h.1, ih h.2 (by omega)⟩

/-- A write within the address space keeps the canonical form. -/
theorem Memory.wf_write {m : Memory} (h : m.wf = true) {a : Nat} (ha : a ≤ 0xFFFF) (v : Byte) :
    (m.write a v).wf = true := Memory.wfFrom_write h (Nat.zero_le a) ha

/-- Writing consecutive bytes within the address space keeps the canonical form. -/
theorem Memory.wf_writeBytes {m : Memory} (h : m.wf = true) {base : Nat} {bytes : List Byte}
    (hb : base + bytes.length ≤ 0x10000) : (m.writeBytes base bytes).wf = true := by
  induction bytes generalizing m base with
  | nil => exact h
  | cons v rest ih =>
    simp only [List.length_cons] at hb
    exact ih (Memory.wf_write h (by omega) v) (by omega)

/-- What an address reads as after consecutive bytes are written. -/
theorem Memory.read_writeBytes {m : Memory} (h : m.wf = true) {base : Nat} {bytes : List Byte}
    (hb : base + bytes.length ≤ 0x10000) (a : Nat) :
    (m.writeBytes base bytes).read a = if base ≤ a then (bytes[a - base]?).getD (m.read a) else m.read a := by
  induction bytes generalizing m base with
  | nil => simp [Memory.writeBytes]
  | cons v rest ih =>
    simp only [List.length_cons] at hb
    simp only [Memory.writeBytes]
    rw [ih (Memory.wf_write h (by omega) v) (by omega), Memory.read_write h]
    by_cases h1 : base + 1 ≤ a
    · have h2 : a - base = (a - (base + 1)) + 1 := by omega
      have h3 : a ≠ base := by omega
      simp [h1, h2, h3, show base ≤ a by omega]
    · by_cases h4 : a = base
      · subst a; simp
      · simp [h1, h4, show ¬ base ≤ a by omega]

/-- Canonical memories with equal reads are equal data. -/
theorem Memory.ext_from {m m' : Memory} {low : Nat} (h : m.wfFrom low = true) (h' : m'.wfFrom low = true)
    (hr : ∀ a, m.read a = m'.read a) : m = m' := by
  induction m generalizing m' low with
  | nil =>
    cases m' with
    | nil => rfl
    | cons c rest =>
      obtain ⟨k, v⟩ := c
      simp only [Memory.wfFrom, Bool.and_eq_true, decide_eq_true_eq] at h'
      have := hr k
      simp only [Memory.read, if_true] at this
      exact absurd this.symm h'.1.2
  | cons c rest ih =>
    obtain ⟨k, v⟩ := c
    simp only [Memory.wfFrom, Bool.and_eq_true, decide_eq_true_eq] at h
    have hk := hr k
    cases m' with
    | nil =>
      simp only [Memory.read, if_true] at hk
      exact absurd hk h.1.2
    | cons c' rest' =>
      obtain ⟨k', v'⟩ := c'
      simp only [Memory.wfFrom, Bool.and_eq_true, decide_eq_true_eq] at h'
      have hk' := hr k'
      simp only [Memory.read, if_true] at hk hk'
      have hkk : k = k' := by
        rcases Nat.lt_trichotomy k k' with hlt | heq | hgt
        · rw [if_neg (by omega), Memory.read_below h'.2 (by omega)] at hk
          exact absurd hk h.1.2
        · exact heq
        · rw [if_neg (by omega), Memory.read_below h.2 (by omega)] at hk'
          exact absurd hk'.symm h'.1.2
      subst hkk
      simp only [if_true] at hk
      subst hk
      congr 1
      refine ih h.2 h'.2 fun a => ?_
      by_cases ha : a = k
      · rw [Memory.read_below h.2 (by omega), Memory.read_below h'.2 (by omega)]
      · simpa only [Memory.read, if_neg ha] using hr a

/-- Canonical memories with equal reads are equal data. -/
theorem Memory.ext {m m' : Memory} (h : m.wf = true) (h' : m'.wf = true) (hr : ∀ a, m.read a = m'.read a) :
    m = m' := Memory.ext_from h h' hr

@[simp] theorem sample_length : sample.length = 32 := rfl

@[simp] theorem hex2_length (v : Byte) : (hex2 v).length = 2 := rfl

@[simp] theorem dumpCells_length (m : Memory) (a count : Nat) : (dumpCells m a count).length = 3 * count := by
  induction count generalizing a with
  | zero => rfl
  | succ k ih => simp [dumpCells, ih]; omega

/-- A dump depends only on the cells it covers. -/
theorem dumpCells_congr {m m' : Memory} {a count : Nat} (h : ∀ i, i < count → m.read (a + i) = m'.read (a + i)) :
    dumpCells m a count = dumpCells m' a count := by
  induction count generalizing a with
  | zero => rfl
  | succ k ih =>
    have hrest : dumpCells m (a + 1) k = dumpCells m' (a + 1) k :=
      ih fun i hi => by simpa only [Nat.add_assoc, Nat.add_comm 1 i] using h (i + 1) (by omega)
    simp only [dumpCells, hrest, show m.read a = m'.read a from h 0 (by omega)]

/-- The three characters of the `i`-th cell of a dump. -/
theorem dumpCells_drop (m : Memory) (a count i : Nat) (h : i < count) :
    ((dumpCells m a count).drop (3 * i)).take 3 = ' ' :: hex2 (m.read (a + i)) := by
  induction count generalizing a i with
  | zero => omega
  | succ k ih =>
    cases i with
    | zero => simp [dumpCells, hex2]
    | succ j =>
      have h2 := ih (a + 1) j (by omega)
      rw [show 3 * (j + 1) = 3 * j + 3 by omega, show a + (j + 1) = a + 1 + j by omega, ← h2]
      simp [dumpCells, hex2]

end Sys2Proof.Machine
end

