-- ==== Sys2Proof/Laws/State.lean ====
section
/-!
SUPPORT. One lemma for each field of State and each update, so that no proof unfolds a record update.
-/

namespace Sys2Proof.Machine

@[simp] theorem State.setSr_sr (s : State) (v : Word) : (s.setSr v).sr = v := rfl
@[simp] theorem State.setSr_bv (s : State) (v : Word) : (s.setSr v).bv = s.bv := rfl
@[simp] theorem State.setSr_bb (s : State) (v : Word) : (s.setSr v).bb = s.bb := rfl
@[simp] theorem State.setSr_mem (s : State) (v : Word) : (s.setSr v).mem = s.mem := rfl
@[simp] theorem State.setSr_requests (s : State) (v : Word) : (s.setSr v).requests = s.requests := rfl
@[simp] theorem State.setSr_replies (s : State) (v : Word) : (s.setSr v).replies = s.replies := rfl

@[simp] theorem State.setBv_sr (s : State) (v : Word) : (s.setBv v).sr = s.sr := rfl
@[simp] theorem State.setBv_bv (s : State) (v : Word) : (s.setBv v).bv = v := rfl
@[simp] theorem State.setBv_bb (s : State) (v : Word) : (s.setBv v).bb = s.bb := rfl
@[simp] theorem State.setBv_mem (s : State) (v : Word) : (s.setBv v).mem = s.mem := rfl
@[simp] theorem State.setBv_requests (s : State) (v : Word) : (s.setBv v).requests = s.requests := rfl
@[simp] theorem State.setBv_replies (s : State) (v : Word) : (s.setBv v).replies = s.replies := rfl

@[simp] theorem State.setBb_sr (s : State) (lo hi : Byte) : (s.setBb lo hi).sr = s.sr := rfl
@[simp] theorem State.setBb_bv (s : State) (lo hi : Byte) : (s.setBb lo hi).bv = s.bv := rfl
@[simp] theorem State.setBb_bb (s : State) (lo hi : Byte) : (s.setBb lo hi).bb = .written lo hi := rfl
@[simp] theorem State.setBb_mem (s : State) (lo hi : Byte) : (s.setBb lo hi).mem = s.mem := rfl
@[simp] theorem State.setBb_requests (s : State) (lo hi : Byte) : (s.setBb lo hi).requests = s.requests := rfl
@[simp] theorem State.setBb_replies (s : State) (lo hi : Byte) : (s.setBb lo hi).replies = s.replies := rfl

@[simp] theorem State.setMem_sr (s : State) (m : Memory) : (s.setMem m).sr = s.sr := rfl
@[simp] theorem State.setMem_bv (s : State) (m : Memory) : (s.setMem m).bv = s.bv := rfl
@[simp] theorem State.setMem_bb (s : State) (m : Memory) : (s.setMem m).bb = s.bb := rfl
@[simp] theorem State.setMem_mem (s : State) (m : Memory) : (s.setMem m).mem = m := rfl
@[simp] theorem State.setMem_requests (s : State) (m : Memory) : (s.setMem m).requests = s.requests := rfl
@[simp] theorem State.setMem_replies (s : State) (m : Memory) : (s.setMem m).replies = s.replies := rfl

@[simp] theorem State.reply_sr (s : State) (r : Reply) : (s.reply r).sr = s.sr := rfl
@[simp] theorem State.reply_bv (s : State) (r : Reply) : (s.reply r).bv = s.bv := rfl
@[simp] theorem State.reply_bb (s : State) (r : Reply) : (s.reply r).bb = s.bb := rfl
@[simp] theorem State.reply_mem (s : State) (r : Reply) : (s.reply r).mem = s.mem := rfl
@[simp] theorem State.reply_requests (s : State) (r : Reply) : (s.reply r).requests = s.requests := rfl
@[simp] theorem State.reply_replies (s : State) (r : Reply) : (s.reply r).replies = s.replies ++ [r] := rfl

@[simp] theorem State.take_sr (s : State) (rest : List Request) : (s.take rest).sr = s.sr := rfl
@[simp] theorem State.take_bv (s : State) (rest : List Request) : (s.take rest).bv = s.bv := rfl
@[simp] theorem State.take_bb (s : State) (rest : List Request) : (s.take rest).bb = s.bb := rfl
@[simp] theorem State.take_mem (s : State) (rest : List Request) : (s.take rest).mem = s.mem := rfl
@[simp] theorem State.take_requests (s : State) (rest : List Request) : (s.take rest).requests = rest := rfl
@[simp] theorem State.take_replies (s : State) (rest : List Request) : (s.take rest).replies = s.replies := rfl

@[simp] theorem State.issue_sr (s : State) (r : Request) : (s.issue r).sr = s.sr := rfl
@[simp] theorem State.issue_bv (s : State) (r : Request) : (s.issue r).bv = s.bv := rfl
@[simp] theorem State.issue_bb (s : State) (r : Request) : (s.issue r).bb = s.bb := rfl
@[simp] theorem State.issue_mem (s : State) (r : Request) : (s.issue r).mem = s.mem := rfl
@[simp] theorem State.issue_requests (s : State) (r : Request) : (s.issue r).requests = r :: s.requests := rfl
@[simp] theorem State.issue_replies (s : State) (r : Request) : (s.issue r).replies = s.replies := rfl

end Sys2Proof.Machine
end

