-- ==== Sys2Proof/Laws/Exec.lean ====
section
/-!
SUPPORT. Everything one operation and one step can do, said once: later proofs cite these lemmas instead of unfolding
the meanings.
-/

namespace Sys2Proof.Machine

theorem respond_eq (r : Result) (s : State) : respond r s = .next (s.reply (.done r)) := rfl

theorem raise_eq (e : CallerError) (s : State) : raise e s = .next (s.reply (.error e)) := rfl

/-- The position-checked update of `SR`, at a valid and at an invalid position. -/
theorem updateSr_eq (f : Word → Nat → Word) (pos : Nat) (s : State) :
    updateSr f pos s =
      if pos < 8 then .next ((s.setSr (f s.sr pos)).reply (.done (.word (f s.sr pos))))
      else .next (s.reply (.error (.invalidBitPosition pos))) := by
  by_cases h : pos < 8 <;> simp [updateSr, validPos, srPosWidth, respond, raise, h]

/-- The position-checked update of `BV`, at a valid and at an invalid position. -/
theorem updateBv_eq (f : Word → Nat → Word) (pos : Nat) (s : State) :
    updateBv f pos s =
      if pos < 16 then .next ((s.setBv (f s.bv pos)).reply (.done (.word (f s.bv pos))))
      else .next (s.reply (.error (.invalidBitPosition pos))) := by
  by_cases h : pos < 16 <;> simp [updateBv, validPos, busPosWidth, respond, raise, h]

theorem execSrTest_eq (pos : Nat) (s : State) :
    execSrTest pos s =
      if pos < 8 then .next (s.reply (.done (.bit (s.sr.getLsbD pos))))
      else .next (s.reply (.error (.invalidBitPosition pos))) := by
  by_cases h : pos < 8 <;> simp [execSrTest, validPos, srPosWidth, isBitSet, respond, raise, h]

theorem execMemRead_eq (a : Nat) (s : State) :
    execMemRead a s =
      if a ≤ 0xFFFF then .next (s.reply (.done (.byte (s.mem.read a))))
      else .next (s.reply (.error (.invalidAddress a))) := by
  by_cases h : a ≤ 0xFFFF <;> simp [execMemRead, validAddress, respond, raise, h]

theorem execMemWrite_eq (a : Nat) (v : Byte) (s : State) :
    execMemWrite a v s =
      if a ≤ 0xFFFF then .next ((s.setMem (s.mem.write a v)).reply (.done .none))
      else .next (s.reply (.error (.invalidAddress a))) := by
  by_cases h : a ≤ 0xFFFF <;> simp [execMemWrite, validAddress, respond, raise, h]

theorem execMemDump_eq (n : Nat) (s : State) :
    execMemDump n s =
      if n ≤ 0x10000 then .next (s.reply (.done (.text (dumpText s.mem n))))
      else .next (s.reply (.error (.invalidAddress (n - 1)))) := by
  by_cases h : n ≤ 0x10000 <;> simp [execMemDump, validCount, respond, raise, h]

/-- `SR` after an operation, from `SR` alone (R65, R120). -/
def newSr (i : Instr) (sr : Word) : Word :=
  match i with
  | .srInit => 0xFF00
  | .srSet pos => if pos < 8 then setBit sr pos else sr
  | .srClr pos => if pos < 8 then clearBit sr pos else sr
  | .srTest _ | .srRead => sr
  | .busInit | .busSet _ | .busClr _ | .busRepack _ | .busSplit _ | .busRead | .busReadBytes => sr
  | .memRead _ | .memWrite _ _ | .memLoadSample | .memDump _ => sr

/-- `BV` after an operation, from `BV` alone (R65, R140). -/
def newBv (i : Instr) (bv : Word) : Word :=
  match i with
  | .busInit => 0x1000
  | .busSet pos => if pos < 16 then setBit bv pos else bv
  | .busClr pos => if pos < 16 then clearBit bv pos else bv
  | .busRepack x => swap16 x
  | .busSplit _ | .busRead | .busReadBytes => bv
  | .srInit | .srSet _ | .srClr _ | .srTest _ | .srRead => bv
  | .memRead _ | .memWrite _ _ | .memLoadSample | .memDump _ => bv

/-- `BB` after an operation, from `BB` alone (R31, R65). -/
def newBb (i : Instr) (bb : Latch) : Latch :=
  match i with
  | .busSplit x => .written (splitSlots Config.splitMode x).1 (splitSlots Config.splitMode x).2
  | .busInit | .busSet _ | .busClr _ | .busRepack _ | .busRead | .busReadBytes => bb
  | .srInit | .srSet _ | .srClr _ | .srTest _ | .srRead => bb
  | .memRead _ | .memWrite _ _ | .memLoadSample | .memDump _ => bb

/-- `M` after an operation, from `M` alone (R65, R170). -/
def newMem (i : Instr) (m : Memory) : Memory :=
  match i with
  | .memWrite a v => if a ≤ 0xFFFF then m.write a v else m
  | .memLoadSample => m.writeBytes 0 sample
  | .memRead _ | .memDump _ => m
  | .srInit | .srSet _ | .srClr _ | .srTest _ | .srRead => m
  | .busInit | .busSet _ | .busClr _ | .busRepack _ | .busSplit _ | .busRead | .busReadBytes => m

/-- The reply of an operation: each family's from its own component. -/
def answer (i : Instr) (s : State) : Reply :=
  match i with
  | .srInit | .srRead => .done (.word (newSr i s.sr))
  | .srSet pos | .srClr pos =>
    if pos < 8 then .done (.word (newSr i s.sr)) else .error (.invalidBitPosition pos)
  | .srTest pos => if pos < 8 then .done (.bit (s.sr.getLsbD pos)) else .error (.invalidBitPosition pos)
  | .busInit | .busRepack _ | .busRead => .done (.word (newBv i s.bv))
  | .busSet pos | .busClr pos =>
    if pos < 16 then .done (.word (newBv i s.bv)) else .error (.invalidBitPosition pos)
  | .busSplit x => .done (.pair (splitSlots Config.splitMode x).1 (splitSlots Config.splitMode x).2)
  | .busReadBytes =>
    match s.bb with
    | .unwritten => .error .unwrittenLatch
    | .written lo hi => .done (.pair lo hi)
  | .memRead a => if a ≤ 0xFFFF then .done (.byte (s.mem.read a)) else .error (.invalidAddress a)
  | .memWrite a _ => if a ≤ 0xFFFF then .done .none else .error (.invalidAddress a)
  | .memLoadSample => .done .none
  | .memDump n => if n ≤ 0x10000 then .done (.text (dumpText s.mem n)) else .error (.invalidAddress (n - 1))

/-- The state an operation leaves: each component from that component alone, the stream as it was, one reply more. -/
def after (i : Instr) (s : State) : State :=
  { sr := newSr i s.sr, bv := newBv i s.bv, bb := newBb i s.bb, mem := newMem i s.mem, requests := s.requests,
    replies := s.replies ++ [answer i s] }

@[simp] theorem after_sr (i : Instr) (s : State) : (after i s).sr = newSr i s.sr := rfl
@[simp] theorem after_bv (i : Instr) (s : State) : (after i s).bv = newBv i s.bv := rfl
@[simp] theorem after_bb (i : Instr) (s : State) : (after i s).bb = newBb i s.bb := rfl
@[simp] theorem after_mem (i : Instr) (s : State) : (after i s).mem = newMem i s.mem := rfl
@[simp] theorem after_requests (i : Instr) (s : State) : (after i s).requests = s.requests := rfl
@[simp] theorem after_replies (i : Instr) (s : State) : (after i s).replies = s.replies ++ [answer i s] := rfl

/-- Everything an operation can do, said once: `exec` is the pure function `after`. Proofs cite this lemma and never
unfold a meaning. -/
theorem exec_eq_after (i : Instr) (s : State) : exec i s = .next (after i s) := by
  cases i with
  | srInit | srRead | busInit | busRepack | busSplit | busRead => rfl
  | memLoadSample =>
    simp only [exec, execMemLoadSample, respond, after, newSr, newBv, newBb, newMem, answer, State.reply, State.setMem]
  | srSet pos | srClr pos =>
    by_cases h : pos < 8 <;>
      simp only [exec, execSrSet, execSrClr, updateSr_eq, after, newSr, newBv, newBb, newMem, answer, State.reply,
        State.setSr, h, if_true, if_false]
  | srTest pos =>
    by_cases h : pos < 8 <;>
      simp only [exec, execSrTest_eq, after, newSr, newBv, newBb, newMem, answer, State.reply, h, if_true, if_false]
  | busSet pos | busClr pos =>
    by_cases h : pos < 16 <;>
      simp only [exec, execBusSet, execBusClr, updateBv_eq, after, newSr, newBv, newBb, newMem, answer, State.reply,
        State.setBv, h, if_true, if_false]
  | busReadBytes =>
    rcases hb : s.bb with _ | ⟨lo, hi⟩ <;>
      simp only [exec, execBusReadBytes, respond, raise, after, newSr, newBv, newBb, newMem, answer, State.reply, hb]
  | memRead a =>
    by_cases h : a ≤ 0xFFFF <;>
      simp only [exec, execMemRead_eq, after, newSr, newBv, newBb, newMem, answer, State.reply, h, if_true, if_false]
  | memWrite a v =>
    by_cases h : a ≤ 0xFFFF <;>
      simp only [exec, execMemWrite_eq, after, newSr, newBv, newBb, newMem, answer, State.reply, State.setMem, h,
        if_true, if_false]
  | memDump n =>
    by_cases h : n ≤ 0x10000 <;>
      simp only [exec, execMemDump_eq, after, newSr, newBv, newBb, newMem, answer, State.reply, h, if_true, if_false]

/-- A next state of an operation is `after`. -/
theorem eq_after {i : Instr} {s t : State} (h : exec i s = .next t) : t = after i s := by
  rw [exec_eq_after] at h
  exact (Host.Outcome.next.inj h).symm

/-- An operation that writes memory keeps its canonical form. -/
theorem newMem_wf {m : Memory} (h : m.wf = true) (i : Instr) : (newMem i m).wf = true := by
  cases i with
  | memWrite a v =>
    by_cases ha : a ≤ 0xFFFF
    · simpa only [newMem, if_pos ha] using Memory.wf_write h ha v
    · simpa only [newMem, if_neg ha] using h
  | memLoadSample => exact Memory.wf_writeBytes h (by simp)
  | srInit | srSet | srClr | srTest | srRead => exact h
  | busInit | busSet | busClr | busRepack | busSplit | busRead | busReadBytes => exact h
  | memRead | memDump => exact h

/-- What a cell holds after an operation. -/
theorem read_newMem {m : Memory} (h : m.wf = true) (i : Instr) (a : Nat) :
    (newMem i m).read a = (byteWritten i a).getD (m.read a) := by
  cases i with
  | memWrite b v =>
    by_cases hb : b ≤ 0xFFFF
    · by_cases ha : a = b <;> simp [newMem, byteWritten, hb, ha, Memory.read_write h]
    · simp [newMem, byteWritten, hb]
  | memLoadSample =>
    simp only [newMem, byteWritten]
    rw [Memory.read_writeBytes h (by simp)]
    simp
  | srInit | srSet | srClr | srTest | srRead => rfl
  | busInit | busSet | busClr | busRepack | busSplit | busRead | busReadBytes => rfl
  | memRead | memDump => rfl

/-- A step with no request outstanding. -/
theorem step_idle {s : State} (h : s.requests = []) : step s = .next s := by
  simp [step, h]

/-- A step that performs an operation. -/
theorem step_performs {s : State} {r : Request} {rest : List Request} {i : Instr} (h : s.requests = r :: rest)
    (hr : r.resolve = .ok i) : step s = exec i (s.take rest) := by
  simp [step, h, hr]

/-- A step that answers a command word which spells no operation. -/
theorem step_rejects {s : State} {r : Request} {rest : List Request} {e : CallerError} (h : s.requests = r :: rest)
    (hr : r.resolve = .error e) : step s = raise e (s.take rest) := by
  simp [step, h, hr]

/-- The state a taken request leaves: its operation performed, or its command word's error answered. -/
def afterRequest (r : Request) (s : State) : State :=
  match r.resolve with
  | .ok i => after i s
  | .error e => s.reply (.error e)

/-- Everything one step can do: nothing, or one request taken and answered. -/
theorem step_cons {s : State} {r : Request} {rest : List Request} (h : s.requests = r :: rest) :
    step s = .next (afterRequest r (s.take rest)) := by
  rcases hr : r.resolve with e | i
  · rw [step_rejects h hr, raise_eq, afterRequest, hr]
  · rw [step_performs h hr, exec_eq_after, afterRequest, hr]

@[simp] theorem afterRequest_requests (r : Request) (s : State) : (afterRequest r s).requests = s.requests := by
  rcases hr : r.resolve with e | i <;> simp [afterRequest, hr]

/-- A stream's run: its first request performed, then the run of the rest. -/
theorem perform_cons (s : State) (r : Request) (rest : List Request) :
    perform s (r :: rest) = perform (afterRequest r (s.take rest)) rest := by
  have hs : Sys2Proof.core.step { s with requests := r :: rest } = .next (afterRequest r (s.take rest)) :=
    step_cons (s := { s with requests := r :: rest }) rfl
  have hq : (afterRequest r (s.take rest)).requests = rest := afterRequest_requests r (s.take rest)
  show Sys2Proof.core.run (rest.length + 1) _ = Sys2Proof.core.run rest.length _
  simp only [Host.Core.run, hs]
  rw [show { afterRequest r (s.take rest) with requests := rest } = afterRequest r (s.take rest) by
    generalize afterRequest r (s.take rest) = t at hq
    subst hq
    rfl]

/-- A word resolves to the operation it decodes to. -/
theorem resolve_word_ok {w : Command} {i : Instr} (h : decode w = .ok i) : (Request.word w).resolve = .ok i := by
  simp [Request.resolve, h]

@[simp] theorem resolve_op (i : Instr) : (Request.op i).resolve = .ok i := rfl

end Sys2Proof.Machine
end

