-- ==== Sys2Proof/Laws/PerInstr.lean ====
section
/-!
SUPPORT. The family `EncodedRow` (LAWS.json): the encoding of every well-formed operation selects the row of the opcode
map that bears its mnemonic (R73, R79).
-/

namespace Sys2Proof.Laws.EncodedRow

/-- The word that encodes the operation selects the row of the operation's mnemonic. -/
def Statement (i : Instr) : Prop :=
  i.wellFormed = true → ∃ r ∈ opcodeTable, r.mnemonic = i.mnemonic ∧ r.selects (encode i) = true

/-- A row whose mask keeps nothing of an operand field matches whatever the operand is. -/
theorem ofRow {i : Instr} (op : Byte) (a aMask : Word) (b bMask : Byte)
    (hrow : (⟨i.mnemonic, packWord op 0 0, packWord 0xFF aMask bMask⟩ : OpcodeRow) ∈ opcodeTable)
    (ha : a &&& aMask = 0) (hb : b &&& bMask = 0) (henc : encode i = packWord op a b) : Statement i := fun _ =>
  ⟨_, hrow, rfl, by rw [henc, selects_packWord]; exact ⟨BitVec.and_allOnes, ha, hb⟩⟩

theorem formatN {i : Instr} (op : Byte) (hrow : (⟨i.mnemonic, packWord op 0 0, 0xFFFFFFFF⟩ : OpcodeRow) ∈ opcodeTable)
    (henc : encode i = packWord op 0 0) : Statement i := ofRow op 0 0xFFFF 0 0xFF hrow rfl rfl henc

theorem formatP {i : Instr} (op b : Byte) (hrow : (⟨i.mnemonic, packWord op 0 0, 0xFFFFFF00⟩ : OpcodeRow) ∈ opcodeTable)
    (henc : encode i = packWord op 0 b) : Statement i := ofRow op 0 0xFFFF b 0 hrow rfl BitVec.and_zero henc

theorem formatA {i : Instr} (op : Byte) (a : Word)
    (hrow : (⟨i.mnemonic, packWord op 0 0, 0xFF0000FF⟩ : OpcodeRow) ∈ opcodeTable)
    (henc : encode i = packWord op a 0) : Statement i := ofRow op a 0 0 0xFF hrow BitVec.and_zero rfl henc

theorem formatAB {i : Instr} (op : Byte) (a : Word) (b : Byte)
    (hrow : (⟨i.mnemonic, packWord op 0 0, 0xFF000000⟩ : OpcodeRow) ∈ opcodeTable)
    (henc : encode i = packWord op a b) : Statement i := ofRow op a 0 b 0 hrow BitVec.and_zero BitVec.and_zero henc

theorem srInit : Statement .srInit :=
  formatN 0x10 (show (⟨"SR.INIT", 0x10000000, 0xFFFFFFFF⟩ : OpcodeRow) ∈ opcodeTable by decide) rfl
theorem srSet (pos : Nat) : Statement (.srSet pos) :=
  formatP 0x11 (.ofNat 8 pos) (show (⟨"SR.SET", 0x11000000, 0xFFFFFF00⟩ : OpcodeRow) ∈ opcodeTable by decide) rfl
theorem srClr (pos : Nat) : Statement (.srClr pos) :=
  formatP 0x12 (.ofNat 8 pos) (show (⟨"SR.CLR", 0x12000000, 0xFFFFFF00⟩ : OpcodeRow) ∈ opcodeTable by decide) rfl
theorem srTest (pos : Nat) : Statement (.srTest pos) :=
  formatP 0x13 (.ofNat 8 pos) (show (⟨"SR.TEST", 0x13000000, 0xFFFFFF00⟩ : OpcodeRow) ∈ opcodeTable by decide) rfl
theorem srRead : Statement .srRead :=
  formatN 0x14 (show (⟨"SR.READ", 0x14000000, 0xFFFFFFFF⟩ : OpcodeRow) ∈ opcodeTable by decide) rfl
theorem busInit : Statement .busInit :=
  formatN 0x20 (show (⟨"BUS.INIT", 0x20000000, 0xFFFFFFFF⟩ : OpcodeRow) ∈ opcodeTable by decide) rfl
theorem busSet (pos : Nat) : Statement (.busSet pos) :=
  formatP 0x21 (.ofNat 8 pos) (show (⟨"BUS.SET", 0x21000000, 0xFFFFFF00⟩ : OpcodeRow) ∈ opcodeTable by decide) rfl
theorem busClr (pos : Nat) : Statement (.busClr pos) :=
  formatP 0x22 (.ofNat 8 pos) (show (⟨"BUS.CLR", 0x22000000, 0xFFFFFF00⟩ : OpcodeRow) ∈ opcodeTable by decide) rfl
theorem busRepack (x : Word) : Statement (.busRepack x) :=
  formatA 0x23 x (show (⟨"BUS.REPACK", 0x23000000, 0xFF0000FF⟩ : OpcodeRow) ∈ opcodeTable by decide) rfl
theorem busSplit (x : Word) : Statement (.busSplit x) :=
  formatA 0x24 x (show (⟨"BUS.SPLIT", 0x24000000, 0xFF0000FF⟩ : OpcodeRow) ∈ opcodeTable by decide) rfl
theorem busRead : Statement .busRead :=
  formatN 0x25 (show (⟨"BUS.READ", 0x25000000, 0xFFFFFFFF⟩ : OpcodeRow) ∈ opcodeTable by decide) rfl
theorem busReadBytes : Statement .busReadBytes :=
  formatN 0x26 (show (⟨"BUS.READBYTES", 0x26000000, 0xFFFFFFFF⟩ : OpcodeRow) ∈ opcodeTable by decide) rfl
theorem memRead (a : Nat) : Statement (.memRead a) :=
  formatA 0x30 (.ofNat 16 a) (show (⟨"MEM.READ", 0x30000000, 0xFF0000FF⟩ : OpcodeRow) ∈ opcodeTable by decide) rfl
theorem memWrite (a : Nat) (v : Byte) : Statement (.memWrite a v) :=
  formatAB 0x31 (.ofNat 16 a) v (show (⟨"MEM.WRITE", 0x31000000, 0xFF000000⟩ : OpcodeRow) ∈ opcodeTable by decide) rfl
theorem memLoadSample : Statement .memLoadSample :=
  formatN 0x32 (show (⟨"MEM.LOADSAMPLE", 0x32000000, 0xFFFFFFFF⟩ : OpcodeRow) ∈ opcodeTable by decide) rfl
theorem memDump (n : Nat) : Statement (.memDump n) :=
  formatA 0x33 (.ofNat 16 n) (show (⟨"MEM.DUMP", 0x33000000, 0xFF0000FF⟩ : OpcodeRow) ∈ opcodeTable by decide) rfl

end Sys2Proof.Laws.EncodedRow
end

