-- ==== Sys2Proof/Tests/Slice0.lean ====
section
/-!
SUPPORT. The model's own tests, each from a row of spec/95_test_vectors.md (named in its comment) or worked out by hand
from a rule, and a witness for the hypotheses of each obligation.
-/

namespace Sys2Proof.Tests

open Sys2Proof Sys2Proof.Machine

/-- The reset state with other values in the three registers. -/
def withRegs (sr bv : Word) (bb : Latch) : State := { State.reset with sr := sr, bv := bv, bb := bb }

/-- The reset state with these cells. -/
def withCells (m : Memory) : State := { State.reset with mem := m }

/-- The next state of an outcome. -/
def nextOf (o : Host.Outcome State Fault Refusal) : Option State :=
  match o with
  | .next s => some s
  | .fault _ => none
  | .refused _ => none

/-- The last reply and one component after an outcome. -/
def seen {α : Type} (f : State → α) (o : Host.Outcome State Fault Refusal) : Option (Option Reply × α) :=
  (nextOf o).map fun s => (s.replies.getLast?, f s)

/-! Well-formedness: each check refuses an operand one too large for its field (R79). -/

theorem test_wellFormed_srSet : (Instr.srSet 255).wellFormed = true ∧ (Instr.srSet 256).wellFormed = false := by decide
theorem test_wellFormed_srClr : (Instr.srClr 255).wellFormed = true ∧ (Instr.srClr 256).wellFormed = false := by decide
theorem test_wellFormed_srTest : (Instr.srTest 255).wellFormed = true ∧ (Instr.srTest 256).wellFormed = false := by decide
theorem test_wellFormed_busSet : (Instr.busSet 255).wellFormed = true ∧ (Instr.busSet 256).wellFormed = false := by decide
theorem test_wellFormed_busClr : (Instr.busClr 255).wellFormed = true ∧ (Instr.busClr 256).wellFormed = false := by decide
theorem test_wellFormed_memRead :
    (Instr.memRead 65535).wellFormed = true ∧ (Instr.memRead 65536).wellFormed = false := by decide
theorem test_wellFormed_memWrite :
    (Instr.memWrite 65535 0).wellFormed = true ∧ (Instr.memWrite 65536 0).wellFormed = false := by decide
theorem test_wellFormed_memDump :
    (Instr.memDump 65535).wellFormed = true ∧ (Instr.memDump 65536).wellFormed = false := by decide

/-! Decoding: one word of each row, written out bit by bit from the formats of R72 and the rows of R73. -/

theorem test_decode_srInit : decode 0b00010000_0000000000000000_00000000 = .ok .srInit := by decide
theorem test_decode_srSet : decode 0b00010001_0000000000000000_10000101 = .ok (.srSet 133) := by decide
theorem test_decode_srClr : decode 0b00010010_0000000000000000_00000110 = .ok (.srClr 6) := by decide
theorem test_decode_srTest : decode 0b00010011_0000000000000000_00000011 = .ok (.srTest 3) := by decide
theorem test_decode_srRead : decode 0b00010100_0000000000000000_00000000 = .ok .srRead := by decide
theorem test_decode_busInit : decode 0b00100000_0000000000000000_00000000 = .ok .busInit := by decide
theorem test_decode_busSet : decode 0b00100001_0000000000000000_00001011 = .ok (.busSet 11) := by decide
theorem test_decode_busClr : decode 0b00100010_0000000000000000_00001100 = .ok (.busClr 12) := by decide
theorem test_decode_busRepack : decode 0b00100011_0001001000110100_00000000 = .ok (.busRepack 0x1234) := by decide
theorem test_decode_busSplit : decode 0b00100100_0001001000110100_00000000 = .ok (.busSplit 0x1234) := by decide
theorem test_decode_busRead : decode 0b00100101_0000000000000000_00000000 = .ok .busRead := by decide
theorem test_decode_busReadBytes : decode 0b00100110_0000000000000000_00000000 = .ok .busReadBytes := by decide
theorem test_decode_memRead : decode 0b00110000_1111111111111110_00000000 = .ok (.memRead 65534) := by decide
theorem test_decode_memWrite : decode 0b00110001_0000000011111111_10101011 = .ok (.memWrite 255 0xAB) := by decide
theorem test_decode_memLoadSample : decode 0b00110010_0000000000000000_00000000 = .ok .memLoadSample := by decide
theorem test_decode_memDump : decode 0b00110011_0000000000100000_00000000 = .ok (.memDump 32) := by decide

/-- VE4, VE5, VE7, VE13, VE14. -/
theorem test_decode_illegal :
    ([0x11000100, 0x10000001, 0x23100001, 0x00000000, 0x15000000, 0x27000000, 0x34000000, 0xFFFFFFFF] : List Command).all
      (fun w => decide (decode w = .error (.illegalCommand w))) = true := by decide

/-- R79, against words of section 2.5. -/
theorem test_encode : encode (.srSet 1) = 0x11000001 ∧ encode (.busRepack 0x1000) = 0x23100000 ∧
    encode (.memWrite 0x00FF 0xAB) = 0x3100FFAB ∧ encode (.memDump 65535) = 0x33FFFF00 := by decide

theorem test_decodeTableWord : decodeTableWord 32 0x3100FFAB = some (.memWrite 0x00FF 0xAB) ∧
    decodeTableWord 32 0x40000000 = none := by decide

/-! BitOps and byte operations: VB2, VB5, VB7, VB10, VB11, VB12. -/

theorem test_bitOps : setBit 0xFF00#16 7 = 0xFF80#16 ∧ clearBit 0xFF02#16 1 = 0xFF00#16 ∧
    clearBit 0xFFFF#16 15 = 0x7FFF#16 ∧ isBitSet 0xFF00#16 7 = false := by decide
theorem test_validPos : validPos 8 7 = true ∧ validPos 8 8 = false ∧ validPos 16 15 = true ∧ validPos 16 16 = false ∧
    validPos 16 31 = false := by decide
theorem test_swap16 : [0x1000, 0x0010, 0x1234, 0x00FF, 0xABAB].map swap16 =
    ([0x0010, 0x1000, 0x3412, 0xFF00, 0xABAB] : List Word) := by decide

/-! Status register. -/

/-- VS1. -/
theorem test_srInit : seen State.sr (exec .srInit (withRegs 0xFFC3 0x1000 .unwritten)) =
    some (some (.done (.word 0xFF00)), 0xFF00) := by decide
/-- VS4. -/
theorem test_srSet : seen State.sr (exec (.srSet 5) (withRegs 0xFF81 0x1000 .unwritten)) =
    some (some (.done (.word 0xFFA1)), 0xFFA1) := by decide
/-- VS9. -/
theorem test_srSet_rejects : seen State.sr (exec (.srSet 8) State.reset) =
    some (some (.error (.invalidBitPosition 8)), 0xFF00) := by decide
/-- VS6. -/
theorem test_srClr : seen State.sr (exec (.srClr 0) (withRegs 0xFFA1 0x1000 .unwritten)) =
    some (some (.done (.word 0xFFA0)), 0xFFA0) := by decide
/-- VS10. -/
theorem test_srClr_rejects : seen State.sr (exec (.srClr 15) State.reset) =
    some (some (.error (.invalidBitPosition 15)), 0xFF00) := by decide
/-- VS5. -/
theorem test_srTest : seen State.sr (exec (.srTest 5) (withRegs 0xFFA1 0x1000 .unwritten)) =
    some (some (.done (.bit true)), 0xFFA1) := by decide
/-- VS11. -/
theorem test_srTest_rejects : seen State.sr (exec (.srTest 8) State.reset) =
    some (some (.error (.invalidBitPosition 8)), 0xFF00) := by decide
/-- VS14. -/
theorem test_srRead : seen State.sr (exec .srRead (withRegs 0xFFFF 0x1000 .unwritten)) =
    some (some (.done (.word 0xFFFF)), 0xFFFF) := by decide

/-! Address bus. -/

/-- VA16. -/
theorem test_busInit : seen (fun s => (s.bv, s.bb)) (exec .busInit (withRegs 0xFF00 0xBEEF (.written 0xCD 0xAB))) =
    some (some (.done (.word 0x1000)), 0x1000, .written 0xCD 0xAB) := by decide
/-- VA4. -/
theorem test_busSet : seen State.bv (exec (.busSet 15) (withRegs 0xFF00 0x0001 .unwritten)) =
    some (some (.done (.word 0x8001)), 0x8001) := by decide
/-- VA6: position 31 does not wrap to line 15. -/
theorem test_busSet_rejects : seen State.bv (exec (.busSet 31) (withRegs 0xFF00 0x8001 .unwritten)) =
    some (some (.error (.invalidBitPosition 31)), 0x8001) := by decide
/-- VA3. -/
theorem test_busClr : seen State.bv (exec (.busClr 12) (withRegs 0xFF00 0x1001 .unwritten)) =
    some (some (.done (.word 0x0001)), 0x0001) := by decide
/-- VA17. -/
theorem test_busRepack :
    seen (fun s => (s.bv, s.bb)) (exec (.busRepack 0x0102) (withRegs 0xFF00 0x1000 (.written 0xCD 0xAB))) =
    some (some (.done (.word 0x0201)), 0x0201, .written 0xCD 0xAB) := by decide
/-- VA12. -/
theorem test_busSplit_invariant : seen (fun s => (s.bv, s.bb)) (execBusSplitIn .invariant 0x1234 State.reset) =
    some (some (.done (.pair 0x34 0x12)), 0x1000, .written 0x34 0x12) := by decide
/-- VA13. -/
theorem test_busSplit_sourceSwapped :
    seen (fun s => (s.bv, s.bb)) (execBusSplitIn .sourceSwapped 0x1234 State.reset) =
    some (some (.done (.pair 0x12 0x34)), 0x1000, .written 0x12 0x34) := by decide
/-- VA20. -/
theorem test_busRead : seen State.bv (exec .busRead (withRegs 0xFF00 0x0010 .unwritten)) =
    some (some (.done (.word 0x0010)), 0x0010) := by decide
/-- VA15. -/
theorem test_busReadBytes_unwritten : seen State.bb (exec .busReadBytes State.reset) =
    some (some (.error .unwrittenLatch), .unwritten) := by decide
/-- Program P5. -/
theorem test_busReadBytes : seen State.bb (exec .busReadBytes (withRegs 0xFF08 0x1234 (.written 0x01 0x02))) =
    some (some (.done (.pair 0x01 0x02)), .written 0x01 0x02) := by decide

/-! Memory. -/

/-- VM3. -/
theorem test_memRead : seen State.mem (exec (.memRead 0xFFFF) (withCells [(0xFFFF, 0xAB)])) =
    some (some (.done (.byte 0xAB)), [(0xFFFF, 0xAB)]) := by decide
/-- VM4. -/
theorem test_memRead_rejects : seen State.mem (exec (.memRead 0x10000) State.reset) =
    some (some (.error (.invalidAddress 0x10000)), []) := by decide
/-- VM2, with a cell already listed below. -/
theorem test_memWrite : seen State.mem (exec (.memWrite 0xFFFF 0xAB) (withCells [(0x10, 0x01)])) =
    some (some (.done .none), [(0x10, 0x01), (0xFFFF, 0xAB)]) := by decide
/-- R36 and the canonical form: a cell that holds the reset byte is not listed. -/
theorem test_memWrite_zero : seen State.mem (exec (.memWrite 0x42 0x00) (withCells [(0x42, 0x07), (0x43, 0x08)])) =
    some (some (.done .none), [(0x43, 0x08)]) := by decide
/-- VM5: no wrap. -/
theorem test_memWrite_rejects : seen State.mem (exec (.memWrite 0x10000 0x01) State.reset) =
    some (some (.error (.invalidAddress 0x10000)), []) := by decide
/-- VM8. -/
theorem test_memLoadSample :
    seen (fun s => [0x0005, 0x000F, 0x0010, 0x0020, 0x0100].map s.mem.read)
      (exec .memLoadSample (withCells [(0x0005, 0x11), (0x0100, 0x77)])) =
    some (some (.done .none), [0x4C, 0x40, 0xE8, 0x00, 0x77]) := by decide
/-- VM11. -/
theorem test_memDump : seen State.mem (exec (.memDump 3) (withCells [(0x0001, 0x0A)])) =
    some (some (.done (.text "0000: 00 0a 00")), [(0x0001, 0x0A)]) := by decide
/-- VM14. -/
theorem test_memDump_rejects : seen State.mem (exec (.memDump 0x10001) State.reset) =
    some (some (.error (.invalidAddress 0x10000)), []) := by decide

/-! A step. -/

/-- VS2 through a command word at the place the step takes its instruction from. -/
theorem test_step_word : nextOf (step (State.reset.withFetchWord 32 0x11000000)) =
    some { State.reset with sr := 0xFF01, replies := [.done (.word 0xFF01)] } := by decide
/-- The last line of program P3. -/
theorem test_step_illegal : nextOf (step (State.reset.withFetchWord 32 0x3000FF01)) =
    some { State.reset with replies := [.error (.illegalCommand 0x3000FF01)] } := by decide
/-- Program P5: an abstract request that no word spells. -/
theorem test_step_abstract : nextOf (step (State.reset.issue (.op (.memDump 70000)))) =
    some { State.reset with replies := [.error (.invalidAddress 69999)] } := by decide
theorem test_memory_wf : Memory.wf [(0, 1), (0xFFFF, 2)] = true ∧ Memory.wf [(1, 1), (0, 1)] = false ∧
    Memory.wf [(0, 0)] = false ∧ Memory.wf [(0x10000, 1)] = false := by decide

/-! Assembler: lines of the programs of section 3, and R81. -/

theorem test_assemble : assemble "SR.SET Z        ; (OK, word(0xFF02))" = some 0x11000001 ∧
    assemble "MEM.WRITE 0x00FF, 0xAB" = some 0x3100FFAB ∧ assemble "BUS.REPACK 0x1000" = some 0x23100000 ∧
    assemble "SR.CLR 200" = some 0x120000C8 ∧ assemble "BUS.SET Z" = none := by decide
theorem test_listing : listing "MEM.WRITE 0x0000, 0xEA" = some "0x310000EA  MEM.WRITE 0x0000, 0xEA" := by decide

/-! Witnesses: for each obligation with hypotheses, a state and operands that meet them, at the edges of its clauses. -/

theorem witness_ResetRegistersAndMemory : (0xFFFF : Nat) ≤ 0xFFFF := by decide
theorem witness_SrSetAndClrWriteOneFlag : (7 : Nat) < 8 := by decide
theorem witness_SrTestAndReadAnswerTheRegister : (7 : Nat) < 8 := by decide
theorem witness_UnusedFlagIsAnOrdinaryBit : ∃ t, Instr.srSet 4 ≠ .srSet 5 ∧
    exec (.srSet 4) (withRegs 0xFF20 0x1000 .unwritten) = .next t ∧ t.sr.getLsbD 5 = true := ⟨_, by decide, rfl, by decide⟩
theorem witness_OnlySrOperationsTouchTheFlags :
    (∃ t, exec .srRead State.reset = .next t ∧ Instr.srRead ≠ .srInit ∧ (∀ p, Instr.srRead ≠ .srSet p) ∧
      ∀ p, Instr.srRead ≠ .srClr p) ∧
    (∃ t, Instr.busInit.isSr = false ∧ exec .busInit State.reset = .next t) ∧
    ∃ t u, exec (.srSet 7) State.reset = .next t ∧ exec (.srSet 7) { State.reset with sr := 0xFF04 } = .next u :=
  ⟨⟨_, rfl, by decide, by intro p; exact nofun, by intro p; exact nofun⟩, ⟨_, rfl, rfl⟩, ⟨_, _, rfl, rfl⟩⟩
theorem witness_FlagOperationLaws : (0 : Nat) < 8 ∧ (7 : Nat) < 8 ∧ (7 : Nat) ≠ 0 ∧
    Instr.srSet ∈ [Instr.srSet, Instr.srClr] ∧ Instr.srClr ∈ [Instr.srSet, Instr.srClr] := by simp
theorem witness_BitPrimitivesActOnOneBit : (8 : Nat) ≤ 16 ∧ (7 : Nat) < 8 ∧ (6 : Nat) ≠ 7 ∧
    (0xFF80#16).getLsbD 7 = true ∧ (0xFF00#16).getLsbD 7 = false := by decide
theorem witness_BitPrimitiveLaws : (16 : Nat) ≤ 16 ∧ (15 : Nat) < 16 ∧ (0 : Nat) < 16 ∧ (15 : Nat) ≠ 0 := by decide
theorem witness_PositionsAreCheckedAgainstTheDeclaredWidth :
    Instr.srTest 8 ∈ [Instr.srSet 8, .srClr 8, .srTest 8] ∧ (8 : Nat) ≤ 8 ∧
    Instr.srSet 7 ∈ [Instr.srSet 7, .srClr 7, .srTest 7] ∧ (7 : Nat) < 8 ∧
    Instr.busClr 16 ∈ [Instr.busSet 16, .busClr 16] ∧ (16 : Nat) ≤ 16 ∧
    Instr.busSet 15 ∈ [Instr.busSet 15, .busClr 15] ∧ (15 : Nat) < 16 := by decide
theorem witness_BusSetAndClrWriteOneLine : (15 : Nat) < 16 := by decide
theorem witness_ReadBytesAnswersTheLatch : (withRegs 0xFF00 0x1000 (.written 0x01 0x02)).bb = .written 0x01 0x02 ∧
    State.reset.bb = .unwritten := by decide
theorem witness_OnlySplitWritesTheLatch :
    (∃ t, exec (.busRepack 0x1234) State.reset = .next t ∧ ∀ x, Instr.busRepack 0x1234 ≠ .busSplit x) ∧
    ∃ t, step ((withRegs 0xFF00 0x1000 (.written 0x01 0x02)).withFetchWord 32 0x20000000) = .next t ∧
      ((withRegs 0xFF00 0x1000 (.written 0x01 0x02)).withFetchWord 32 0x20000000).bb ≠ .unwritten :=
  ⟨⟨_, rfl, by intro x; exact nofun⟩, ⟨_, rfl, by decide⟩⟩
theorem witness_ReadBytesAnswersTheLastSplit :
    (∀ r ∈ [Request.op .busInit, .word 0x40000000], ∀ y, r.resolve ≠ .ok (.busSplit y)) ∧
    ∃ t u, exec (.busSplit 0x1234) State.reset = .next t ∧
      perform t [Request.op .busInit, .word 0x40000000] = .next u := by
  refine ⟨?_, _, _, rfl, rfl⟩
  intro r hr y
  simp only [List.mem_cons, List.not_mem_nil, or_false] at hr
  rcases hr with rfl | rfl <;> exact nofun
theorem witness_MemReadAnswersTheCell : (0xFFFF : Nat) ≤ 0xFFFF := by decide
theorem witness_MemWriteStoresOneCell : (withCells [(3, 7)]).mem.wf = true ∧ (0xFFFF : Nat) ≤ 0xFFFF ∧ 3 ≠ 0xFFFF := by
  decide
theorem witness_AddressesAreChecked :
    Instr.memRead 0x10000 ∈ [Instr.memRead 0x10000, .memWrite 0x10000 0x55] ∧ 0xFFFF < 0x10000 ∧
    Instr.memWrite 0xFFFF 0x55 ∈ [Instr.memRead 0xFFFF, .memWrite 0xFFFF 0x55] ∧ 0xFFFF ≤ 0xFFFF ∧
    0x10000 < 0x10001 ∧ 0x10000 ≤ 0x10000 ∧
    ∃ t, decode 0x30FFFF00 = .ok (.memRead 0xFFFF) ∧ exec (.memRead 0xFFFF) State.reset = .next t := by
  refine ⟨by decide, by decide, by decide, by decide, by decide, by decide, _, by decide, rfl⟩
theorem witness_EveryCellIsReadableAndWritable : (withCells [(3, 7)]).mem.wf = true ∧ (0xFFFF : Nat) ≤ 0xFFFF ∧
    3 ≠ 0xFFFF ∧ 0xFFFF < 0x10000 := by decide
theorem witness_MemoryReadWriteLaws : (withCells [(3, 7)]).mem.wf = true ∧ (0 : Nat) ≤ 0xFFFF ∧
    (0xFFFF : Nat) ≤ 0xFFFF ∧ 0 ≠ 0xFFFF := by decide
theorem witness_OnlyWriteAndLoadSampleChangeMemory : ∃ t, exec (.memDump 1) (withCells [(3, 7)]) = .next t ∧
    (∀ a v, Instr.memDump 1 ≠ .memWrite a v) ∧ Instr.memDump 1 ≠ .memLoadSample :=
  ⟨_, rfl, by intro a v; exact nofun, by decide⟩
theorem witness_SampleBytesAfterLoadSample : (withCells [(3, 7)]).mem.wf = true := by decide
theorem witness_LoadSampleChangesOnlyItsCells : (withCells [(0x20, 7)]).mem.wf = true ∧ 0x001F < 0x20 := by decide
theorem witness_HexDigitsOfAByte : (0x10000 : Nat) ≤ 0x10000 := by decide
theorem witness_DumpTextLayout : (0x10000 : Nat) ≤ 0x10000 ∧ 0xFFFF < 0x10000 ∧ 0x10000 < 0x10001 := by decide
theorem witness_DumpOfTheSample : (withCells [(3, 7)]).mem.wf = true := by decide
theorem witness_ReadingOperationsWriteNothing : Instr.srTest 8 ∈ [Instr.srTest 8, .srRead, .busRead, .busReadBytes,
    .memRead 8, .memDump 8] := by decide
theorem witness_ComponentsAreIndependent : (Instr.srSet 8).isSr = true ∧ (Instr.busSplit 0x1234).isBus = true ∧
    (Instr.memDump 0x10001).isMem = true := by decide
theorem witness_ErrorsWriteNoState : ∃ t, exec (.srSet 8) State.reset = .next t ∧
    t.replies = State.reset.replies ++ [.error (.invalidBitPosition 8)] := ⟨_, rfl, by decide⟩
theorem witness_EachOperationHasOneCheck :
    (∃ t, exec (.busClr 16) State.reset = .next t ∧ t.replies = [] ++ [.error (.invalidBitPosition 16)]) ∧
    (∃ t, exec (.srClr 8) State.reset = .next t ∧ t.replies = [] ++ [.error (.invalidBitPosition 8)]) ∧
    (∃ t, exec (.memDump 0x10001) State.reset = .next t ∧ t.replies = [] ++ [.error (.invalidAddress 0x10000)]) ∧
    ∃ t, exec .busReadBytes State.reset = .next t ∧ t.replies = [] ++ [.error .unwrittenLatch] :=
  ⟨⟨_, rfl, by decide⟩, ⟨_, rfl, by decide⟩, ⟨_, rfl, by decide⟩, ⟨_, rfl, by decide⟩⟩
theorem witness_DecodeUndoesEncode : (Instr.memWrite 0xFFFF 0xFF).wellFormed = true := by decide
theorem witness_EncodeUndoesDecode : decode 0x31FFFFFF = .ok (.memWrite 0xFFFF 0xFF) := by decide
theorem witness_DecoderAgreesWithTheOpcodeMap :
    (∃ r ∈ opcodeTable, (0x31FFFFFF : Command) &&& r.mask = r.pattern) ∧
    ∀ r ∈ opcodeTable, (0x11000100 : Command) &&& r.mask ≠ r.pattern := by decide
theorem witness_DecodeReadsOperandsUnchanged : (255 : Nat) < 256 ∧ (65535 : Nat) < 65536 := by decide
theorem witness_StepPerformsTheNextRequest :
    (State.reset.issue (.word 0x10000000)).requests = .word 0x10000000 :: [] ∧ decode 0x10000000 = .ok .srInit ∧
    (State.reset.issue (.word 0x00000000)).requests = .word 0x00000000 :: [] ∧
    decode 0x00000000 = .error (.illegalCommand 0x00000000) ∧
    (State.reset.issue (.op (.memRead 70000))).requests = .op (.memRead 70000) :: [] ∧ State.reset.requests = [] := by
  decide
theorem witness_StepAfterWithFetchWord : 0x31FFFFFF < 2 ^ 32 ∧
    decodeTableWord 32 0x31FFFFFF = some (.memWrite 0xFFFF 0xFF) := by decide
theorem witness_StepAnswersExactlyOneRequest :
    (State.reset.issue (.word 0xFFFFFFFF)).requests = .word 0xFFFFFFFF :: [] := by decide
theorem witness_StepKeepsTheInvariant : ∃ t, ((withCells [(3, 7)]).issue (.op (.srClr 15))).Inv ∧
    step ((withCells [(3, 7)]).issue (.op (.srClr 15))) = .next t := ⟨_, ⟨by decide, by decide⟩, rfl⟩
theorem witness_CellsHoldTheLastWrite : ∃ t, (withCells [(3, 7)]).mem.wf = true ∧ (0xFFFF : Nat) ≤ 0xFFFF ∧
    perform (withCells [(3, 7)]) [.op (.memWrite 3 9), .word 0x31000308] = .next t := ⟨_, by decide, by decide, rfl⟩
theorem witness_ZeroingAndInitsRestoreTheResetValues : (withCells [(3, 7)]).mem.wf = true := by decide

end Sys2Proof.Tests
end

/-!
PROOFS. The family of spec/10_state.md: the reset values (O1), and which operations touch the flags (O8). O8 goes
through `after`, which says once what an operation leaves.
-/

namespace Sys2Proof.Machine

/-! ### Reset -/

@[simp] theorem Memory.read_nil (a : Nat) : Memory.read [] a = resetByte := rfl

theorem reset_flag_clear (f : Flag) : State.reset.sr.getLsbD f.bit = false := by
  cases f <;> rfl

/-- Settles O1: the registers are literals of `State.reset`, and its memory lists no cell, so every cell reads as the
reset byte. -/
theorem resetRegistersAndMemory : Obligations.ResetRegistersAndMemory :=
  ⟨rfl, reset_flag_clear, rfl, rfl, fun a _ => Memory.read_nil a⟩

/-! ### Who writes and who reads `SR` -/

/-- Every operation but SR.INIT, SR.SET and SR.CLR leaves `SR` as it was (R26). -/
theorem newSr_eq_self {i : Instr} (hInit : i ≠ .srInit) (hSet : ∀ p, i ≠ .srSet p) (hClr : ∀ p, i ≠ .srClr p)
    (sr : Word) : newSr i sr = sr := by
  cases i with
  | srInit => exact absurd rfl hInit
  | srSet pos => exact absurd rfl (hSet pos)
  | srClr pos => exact absurd rfl (hClr pos)
  | srTest | srRead => rfl
  | busInit | busSet | busClr | busRepack | busSplit | busRead | busReadBytes => rfl
  | memRead | memWrite | memLoadSample | memDump => rfl

theorem newSr_of_not_isSr {i : Instr} (hi : i.isSr = false) (sr : Word) : newSr i sr = sr :=
  newSr_eq_self (by rintro rfl; cases hi) (by rintro _ rfl; cases hi) (by rintro _ rfl; cases hi) sr

/-- A bus or memory operation answers the same whatever `SR` holds. -/
theorem answer_setSr_of_not_isSr {i : Instr} (hi : i.isSr = false) (s : State) (v : Word) :
    answer i (s.setSr v) = answer i s := by
  cases i with
  | srInit | srSet | srClr | srTest | srRead => cases hi
  | busInit | busSet | busClr | busRepack | busSplit | busRead | busReadBytes => rfl
  | memRead | memWrite | memLoadSample | memDump => rfl

/-- A bus or memory operation commutes with any change of `SR`. -/
theorem after_setSr_of_not_isSr {i : Instr} (hi : i.isSr = false) (s : State) (v : Word) :
    after i (s.setSr v) = (after i s).setSr v := by
  rw [after, State.setSr_sr, newSr_of_not_isSr hi, answer_setSr_of_not_isSr hi]
  rfl

/-- No value of `SR` decides whether an operation succeeds: only the position of an SR operation is checked. -/
theorem answer_setSr_done_iff (i : Instr) (s : State) (v : Word) :
    (∃ r, answer i (s.setSr v) = .done r) ↔ ∃ r, answer i s = .done r := by
  cases i with
  | srInit | srRead => simp [answer]
  | srSet pos | srClr pos | srTest pos => by_cases hpos : pos < 8 <;> simp [answer, hpos]
  | busInit | busSet | busClr | busRepack | busSplit | busRead | busReadBytes =>
    rw [answer_setSr_of_not_isSr rfl]
  | memRead | memWrite | memLoadSample | memDump => rw [answer_setSr_of_not_isSr rfl]

theorem after_replies_done_iff (i : Instr) (s : State) :
    (∃ r, (after i s).replies = s.replies ++ [.done r]) ↔ ∃ r, answer i s = .done r := by
  simp

/-- Settles O8: `after` takes `SR` to `newSr`, every other component from that component alone, and checks no flag. -/
theorem onlySrOperationsTouchTheFlags : Obligations.OnlySrOperationsTouchTheFlags := by
  refine ⟨fun i s t h hInit hSet hClr => ?_, fun i s t v hi h => ?_, fun i s t u v ht hu => ?_⟩
  · rw [eq_after h, after_sr, newSr_eq_self hInit hSet hClr]
  · rw [eq_after h, exec_eq_after]
    exact congrArg Host.Outcome.next (after_setSr_of_not_isSr hi s v)
  · obtain rfl := eq_after ht
    obtain rfl := eq_after hu
    have hdone := calc (∃ r, (after i s).replies = s.replies ++ [.done r])
      _ ↔ ∃ r, answer i s = .done r := after_replies_done_iff i s
      _ ↔ ∃ r, answer i (s.setSr v) = .done r := (answer_setSr_done_iff i s v).symm
      _ ↔ ∃ r, (after i (s.setSr v)).replies = s.replies ++ [.done r] := (after_replies_done_iff i (s.setSr v)).symm
    exact ⟨rfl, rfl, rfl, rfl, hdone⟩

end Sys2Proof.Machine

/-!
PROOFS. The family of spec/20_memory.md: the three components are independent (O35). What an operation leaves is
`after`, which takes each component from that component alone; what is left to say is that each family's components
stay as they are under the other families, and that a family's answer comes from its own.
-/

namespace Sys2Proof.Machine

/-! ### The families -/

/-- Every operation belongs to exactly one family (R120, R140, R170). -/
theorem family_cases (i : Instr) :
    (i.isSr = true ∧ i.isBus = false ∧ i.isMem = false) ∨ (i.isSr = false ∧ i.isBus = true ∧ i.isMem = false) ∨
      (i.isSr = false ∧ i.isBus = false ∧ i.isMem = true) := by
  cases i with
  | srInit | srSet | srClr | srTest | srRead => exact .inl ⟨rfl, rfl, rfl⟩
  | busInit | busSet | busClr | busRepack | busSplit | busRead | busReadBytes => exact .inr (.inl ⟨rfl, rfl, rfl⟩)
  | memRead | memWrite | memLoadSample | memDump => exact .inr (.inr ⟨rfl, rfl, rfl⟩)

/-! ### What the other families leave unchanged -/

theorem newBv_of_not_isBus {i : Instr} (hi : i.isBus = false) (bv : Word) : newBv i bv = bv := by
  cases i with
  | busInit | busSet | busClr | busRepack | busSplit | busRead | busReadBytes => cases hi
  | srInit | srSet | srClr | srTest | srRead => rfl
  | memRead | memWrite | memLoadSample | memDump => rfl

theorem newBb_of_not_isBus {i : Instr} (hi : i.isBus = false) (bb : Latch) : newBb i bb = bb := by
  cases i with
  | busInit | busSet | busClr | busRepack | busSplit | busRead | busReadBytes => cases hi
  | srInit | srSet | srClr | srTest | srRead => rfl
  | memRead | memWrite | memLoadSample | memDump => rfl

theorem newMem_of_not_isMem {i : Instr} (hi : i.isMem = false) (m : Memory) : newMem i m = m := by
  cases i with
  | memRead | memWrite | memLoadSample | memDump => cases hi
  | srInit | srSet | srClr | srTest | srRead => rfl
  | busInit | busSet | busClr | busRepack | busSplit | busRead | busReadBytes => rfl

/-! ### What a family's answer depends on -/

theorem answer_congr_of_isSr {i : Instr} (hi : i.isSr = true) {s t : State} (hsr : s.sr = t.sr) :
    answer i s = answer i t := by
  cases i with
  | srInit | srSet | srClr | srTest | srRead => simp only [answer, hsr]
  | busInit | busSet | busClr | busRepack | busSplit | busRead | busReadBytes => cases hi
  | memRead | memWrite | memLoadSample | memDump => cases hi

theorem answer_congr_of_isBus {i : Instr} (hi : i.isBus = true) {s t : State} (hbv : s.bv = t.bv) (hbb : s.bb = t.bb) :
    answer i s = answer i t := by
  cases i with
  | busInit | busSet | busClr | busRepack | busSplit | busRead => simp only [answer, hbv]
  | busReadBytes => simp only [answer, hbb]
  | srInit | srSet | srClr | srTest | srRead => cases hi
  | memRead | memWrite | memLoadSample | memDump => cases hi

theorem answer_congr_of_isMem {i : Instr} (hi : i.isMem = true) {s t : State} (hmem : s.mem = t.mem) :
    answer i s = answer i t := by
  cases i with
  | memRead | memWrite | memLoadSample | memDump => simp only [answer, hmem]
  | srInit | srSet | srClr | srTest | srRead => cases hi
  | busInit | busSet | busClr | busRepack | busSplit | busRead | busReadBytes => cases hi

/-! ### Each family alone -/

/-- StatusRegister operations read and write only `SR` (R65). -/
theorem exec_independent_of_isSr {i : Instr} (hi : i.isSr = true) (s : State) (bv : Word) (bb : Latch) (m : Memory) :
    ∃ t, exec i s = .next t ∧ t.bv = s.bv ∧ t.bb = s.bb ∧ t.mem = s.mem ∧
      exec i { s with bv := bv, bb := bb, mem := m } = .next { t with bv := bv, bb := bb, mem := m } := by
  obtain ⟨hBus, hMem⟩ : i.isBus = false ∧ i.isMem = false := by simpa [hi] using family_cases i
  have hans : answer i { s with bv := bv, bb := bb, mem := m } = answer i s := answer_congr_of_isSr hi rfl
  refine ⟨after i s, exec_eq_after i s, newBv_of_not_isBus hBus _, newBb_of_not_isBus hBus _,
    newMem_of_not_isMem hMem _, ?_⟩
  rw [exec_eq_after, after, hans, newBv_of_not_isBus hBus, newBb_of_not_isBus hBus, newMem_of_not_isMem hMem]
  rfl

/-- AddressBus operations read and write only `BV` and `BB` (R65). -/
theorem exec_independent_of_isBus {i : Instr} (hi : i.isBus = true) (s : State) (sr : Word) (m : Memory) :
    ∃ t, exec i s = .next t ∧ t.sr = s.sr ∧ t.mem = s.mem ∧
      exec i { s with sr := sr, mem := m } = .next { t with sr := sr, mem := m } := by
  obtain ⟨hSr, hMem⟩ : i.isSr = false ∧ i.isMem = false := by simpa [hi] using family_cases i
  have hans : answer i { s with sr := sr, mem := m } = answer i s := answer_congr_of_isBus hi rfl rfl
  refine ⟨after i s, exec_eq_after i s, newSr_of_not_isSr hSr _, newMem_of_not_isMem hMem _, ?_⟩
  rw [exec_eq_after, after, hans, newSr_of_not_isSr hSr, newMem_of_not_isMem hMem]
  rfl

/-- Memory operations read and write only `M` (R65). -/
theorem exec_independent_of_isMem {i : Instr} (hi : i.isMem = true) (s : State) (sr bv : Word) (bb : Latch) :
    ∃ t, exec i s = .next t ∧ t.sr = s.sr ∧ t.bv = s.bv ∧ t.bb = s.bb ∧
      exec i { s with sr := sr, bv := bv, bb := bb } = .next { t with sr := sr, bv := bv, bb := bb } := by
  obtain ⟨hSr, hBus⟩ : i.isSr = false ∧ i.isBus = false := by simpa [hi] using family_cases i
  have hans : answer i { s with sr := sr, bv := bv, bb := bb } = answer i s := answer_congr_of_isMem hi rfl
  refine ⟨after i s, exec_eq_after i s, newSr_of_not_isSr hSr _, newBv_of_not_isBus hBus _,
    newBb_of_not_isBus hBus _, ?_⟩
  rw [exec_eq_after, after, hans, newSr_of_not_isSr hSr, newBv_of_not_isBus hBus, newBb_of_not_isBus hBus]
  rfl

theorem isSr_or_isBus_or_isMem (i : Instr) : (i.isSr || i.isBus || i.isMem) = true := by
  obtain ⟨h, -⟩ | ⟨-, h, -⟩ | ⟨-, -, h⟩ := family_cases i <;> simp [h]

/-- Settles O35: each family alone, from `after` and the component its answer comes from. -/
theorem componentsAreIndependent : Obligations.ComponentsAreIndependent := fun i s =>
  ⟨fun hi => exec_independent_of_isSr hi s, fun hi => exec_independent_of_isBus hi s,
    fun hi => exec_independent_of_isMem hi s, isSr_or_isBus_or_isMem i⟩

end Sys2Proof.Machine

/-!
PROOFS. The family of spec/40_bitops.md: the three primitives act on one bit (O10) and keep the laws of R105 (O11).
Every step is read off the bit at each position, which `getLsbD_setBit` and `getLsbD_clearBit` give.
-/

namespace Sys2Proof.Machine

section
variable {n : Nat} {p q : Nat} (v : BitVec n)

/-! ### The bit at the position, and the other bits -/

theorem getLsbD_setBit_self (hp : p < n) : (setBit v p).getLsbD p = true := by
  simp [hp]

theorem getLsbD_clearBit_self : (clearBit v p).getLsbD p = false := by
  simp

theorem getLsbD_setBit_of_ne (hq : q ≠ p) : (setBit v p).getLsbD q = v.getLsbD q := by
  simp [hq]

theorem getLsbD_clearBit_of_ne (hq : q ≠ p) : (clearBit v p).getLsbD q = v.getLsbD q := by
  simp [hq]

/-! ### No change where the bit already has the value -/

theorem setBit_eq_self {v : BitVec n} (hv : v.getLsbD p = true) : setBit v p = v := by
  apply BitVec.eq_of_getLsbD_eq
  intro i _
  by_cases hi : i = p
  · subst hi
    simp [hv]
  · exact getLsbD_setBit_of_ne v hi

theorem clearBit_eq_self {v : BitVec n} (hv : v.getLsbD p = false) : clearBit v p = v := by
  apply BitVec.eq_of_getLsbD_eq
  intro i _
  by_cases hi : i = p
  · subst hi
    rw [getLsbD_clearBit_self, hv]
  · exact getLsbD_clearBit_of_ne v hi

/-! ### Two primitives one after the other -/

theorem setBit_comm : setBit (setBit v p) q = setBit (setBit v q) p := by
  simp only [setBit, BitVec.or_assoc, BitVec.or_comm (1#n <<< p)]

theorem clearBit_comm : clearBit (clearBit v p) q = clearBit (clearBit v q) p := by
  simp only [clearBit, BitVec.and_assoc, BitVec.and_comm (~~~(1#n <<< p))]

/-- Setting and clearing commute at distinct positions only: at one position the later of the two wins. -/
theorem setBit_clearBit_comm (hpq : p ≠ q) : setBit (clearBit v p) q = clearBit (setBit v q) p := by
  apply BitVec.eq_of_getLsbD_eq
  intro i _
  by_cases hi : i = p
  · subst hi
    rw [getLsbD_setBit_of_ne _ hpq, getLsbD_clearBit_self, getLsbD_clearBit_self]
  · rw [getLsbD_clearBit_of_ne _ hi, getLsbD_setBit, getLsbD_setBit, getLsbD_clearBit_of_ne _ hi]

end

/-- Settles O10: the position lies below the storage width, so the bit lemmas of `setBit` and `clearBit` apply. -/
theorem bitPrimitivesActOnOneBit : Obligations.BitPrimitivesActOnOneBit := by
  refine ⟨fun n w v pos hw hpos => ?_, by decide⟩
  have hset : (setBit v pos).getLsbD pos = true := getLsbD_setBit_self v (hpos.trans_le hw)
  exact ⟨rfl, rfl, Iff.rfl, hset, getLsbD_clearBit_self v,
    fun q hq => ⟨getLsbD_setBit_of_ne v hq, getLsbD_clearBit_of_ne v hq⟩, setBit_eq_self, clearBit_eq_self⟩

/-- Settles O11: after a primitive the bit has the value it writes, so a second use changes nothing; the order laws
are the three commutations. -/
theorem bitPrimitiveLaws : Obligations.BitPrimitiveLaws := by
  intro n w v p hw hp
  have hset : (setBit v p).getLsbD p = true := getLsbD_setBit_self v (hp.trans_le hw)
  have hclear : (clearBit v p).getLsbD p = false := getLsbD_clearBit_self v
  exact ⟨hset, hclear, setBit_eq_self hset, clearBit_eq_self hclear,
    fun q _ hpq => ⟨setBit_comm v, clearBit_comm v, setBit_clearBit_comm v hpq⟩⟩

end Sys2Proof.Machine

/-!
PROOFS. The family of spec/42_address_bus.md: the byte swap and its contract (O16). `swap16 x` is built from the two
bytes of `x`, so the laws of a word built from two bytes (`lowByte_bytes`, `highByte_bytes`, `bytes_of_word`) say all
of it.
-/

namespace Sys2Proof.Machine

@[simp] theorem lowByte_swap16 (x : Word) : lowByte (swap16 x) = highByte x :=
  lowByte_bytes (lowByte x) (highByte x)

@[simp] theorem highByte_swap16 (x : Word) : highByte (swap16 x) = lowByte x :=
  highByte_bytes (lowByte x) (highByte x)

@[simp] theorem swap16_swap16 (x : Word) : swap16 (swap16 x) = x :=
  calc swap16 (swap16 x)
    _ = lowByte (swap16 x) ++ highByte (swap16 x) := rfl
    _ = highByte x ++ lowByte x := by rw [lowByte_swap16, highByte_swap16]
    _ = x := bytes_of_word x

/-- Settles O16: the two bytes change places (R147), and changing places twice restores the word. -/
theorem byteSwapIsSelfInverse : Obligations.ByteSwapIsSelfInverse :=
  ⟨fun x => ⟨rfl, highByte_swap16 x, lowByte_swap16 x, swap16_swap16 x⟩, by decide⟩

end Sys2Proof.Machine

/-!
PROOFS. The family of spec/43_memory_ops.md: the address check (O25) and the sample bytes (O29). The check is read off
`answer`: an operation that a command word spells is well-formed, and only an operation that is not can be answered
`InvalidAddress`.
-/

namespace Sys2Proof.Machine

/-! ### An error's outcome and a success's -/

/-- An operation that answers an error leaves all but the replies as it was (R205). -/
theorem after_eq_reply_of_error {i : Instr} {s : State} {e : CallerError} (h : answer i s = .error e) :
    after i s = s.reply (.error e) := by
  rw [after, h]
  cases i with
  | srInit | srRead | busInit | busRepack | busSplit | busRead | memLoadSample => cases h
  | srSet pos | srClr pos =>
    by_cases hpos : pos < 8
    · simp [answer, hpos] at h
    · rw [newSr, if_neg hpos]
      rfl
  | busSet pos | busClr pos =>
    by_cases hpos : pos < 16
    · simp [answer, hpos] at h
    · rw [newBv, if_neg hpos]
      rfl
  | memWrite a v =>
    by_cases ha : a ≤ 0xFFFF
    · simp [answer, ha] at h
    · rw [newMem, if_neg ha]
      rfl
  | srTest | busReadBytes | memRead | memDump => rfl

theorem exec_eq_reply_of_error {i : Instr} {s : State} {e : CallerError} (h : answer i s = .error e) :
    exec i s = .next (s.reply (.error e)) := by
  rw [exec_eq_after, after_eq_reply_of_error h]

theorem exec_replies_of_done {i : Instr} {s : State} {r : Result} (h : answer i s = .done r) :
    ∃ t r, exec i s = .next t ∧ t.replies = s.replies ++ [.done r] :=
  ⟨after i s, r, exec_eq_after i s, by rw [after_replies, h]⟩

/-! ### A command word spells only well-formed operations -/

section
variable {w : Command} {i : Instr}

theorem wellFormed_of_decodeN {j : Instr} (h : decodeN j w = .ok i) (hj : j.wellFormed = true) :
    i.wellFormed = true := by
  unfold decodeN at h
  split at h
  · cases h; exact hj
  · cases h

theorem wellFormed_of_decodeP {f : Nat → Instr} (h : decodeP f w = .ok i)
    (hf : ∀ pos ≤ 255, (f pos).wellFormed = true) : i.wellFormed = true := by
  unfold decodeP at h
  split at h
  · cases h; exact hf _ (Nat.le_of_lt_succ (bField w).isLt)
  · cases h

theorem wellFormed_of_decodeA {f : Word → Instr} (h : decodeA f w = .ok i)
    (hf : ∀ x, (f x).wellFormed = true) : i.wellFormed = true := by
  unfold decodeA at h
  split at h
  · cases h; exact hf _
  · cases h

theorem wellFormed_of_decodeAB {f : Word → Byte → Instr} (h : decodeAB f w = .ok i)
    (hf : ∀ x v, (f x v).wellFormed = true) : i.wellFormed = true := by
  cases h; exact hf _ _

/-- Every operand read from a field of a command word fits that field (R75, R79). -/
theorem wellFormed_of_decode (h : decode w = .ok i) : i.wellFormed = true := by
  have hpos (pos : Nat) (hle : pos ≤ 255) : decide (pos ≤ 255) = true := decide_eq_true hle
  have hfield (x : Word) : decide (x.toNat ≤ 0xFFFF) = true := decide_eq_true (Nat.le_of_lt_succ x.isLt)
  unfold decode at h
  split at h
  · exact wellFormed_of_decodeN h rfl
  · exact wellFormed_of_decodeP h hpos
  · exact wellFormed_of_decodeP h hpos
  · exact wellFormed_of_decodeP h hpos
  · exact wellFormed_of_decodeN h rfl
  · exact wellFormed_of_decodeN h rfl
  · exact wellFormed_of_decodeP h hpos
  · exact wellFormed_of_decodeP h hpos
  · exact wellFormed_of_decodeA h (fun _ => rfl)
  · exact wellFormed_of_decodeA h (fun _ => rfl)
  · exact wellFormed_of_decodeN h rfl
  · exact wellFormed_of_decodeN h rfl
  · exact wellFormed_of_decodeA h hfield
  · exact wellFormed_of_decodeAB h (fun x _ => hfield x)
  · exact wellFormed_of_decodeN h rfl
  · exact wellFormed_of_decodeA h hfield
  · cases h

end

/-! ### The address check -/

/-- `InvalidAddress` is answered only where an address or a count does not fit its field. -/
theorem wellFormed_eq_false_of_invalidAddress {i : Instr} {s : State} {a : Nat}
    (h : answer i s = .error (.invalidAddress a)) : i.wellFormed = false := by
  cases i with
  | memRead b | memWrite b =>
    by_cases hb : b ≤ 0xFFFF
    · simp [answer, hb] at h
    · exact decide_eq_false hb
  | memDump n =>
    by_cases hn : n ≤ 0x10000
    · simp [answer, hn] at h
    · exact decide_eq_false (by omega)
  | memLoadSample => cases h
  | srInit | srRead => cases h
  | srSet pos | srClr pos | srTest pos => by_cases hpos : pos < 8 <;> simp [answer, hpos] at h
  | busInit | busRepack | busSplit | busRead => cases h
  | busSet pos | busClr pos => by_cases hpos : pos < 16 <;> simp [answer, hpos] at h
  | busReadBytes => rcases hb : s.bb with _ | ⟨lo, hi⟩ <;> simp [answer, hb] at h

/-- Settles O25: the answers at the two boundaries are the branches of `answer`, and a command word spells only
operations that pass the check. -/
theorem addressesAreChecked : Obligations.AddressesAreChecked := by
  refine ⟨fun s a v i hi => ?_, fun s n => ⟨fun hn => ?_, fun hn => ?_⟩, fun w i s t a hw ht hreplies => ?_⟩
  · obtain rfl | rfl : i = .memRead a ∨ i = .memWrite a v := by simpa using hi
    all_goals exact ⟨fun ha => exec_eq_reply_of_error (if_neg ha.not_ge), fun ha => exec_replies_of_done (if_pos ha)⟩
  · exact ⟨n - 1, by omega, exec_eq_reply_of_error (if_neg hn.not_ge)⟩
  · exact exec_replies_of_done (if_pos hn)
  · obtain rfl := eq_after ht
    have hans : answer i s = .error (.invalidAddress a) := by simpa using hreplies
    exact Bool.false_ne_true ((wellFormed_eq_false_of_invalidAddress hans).symm.trans (wellFormed_of_decode hw))

/-! ### The sample -/

/-- After MEM.LOADSAMPLE each of the 32 cells holds its sample byte, whatever it held before. -/
theorem read_after_memLoadSample {s : State} (h : s.mem.wf = true) {a : Nat} (ha : a < 32) :
    (after .memLoadSample s).mem.read a = sample.getD a resetByte := by
  have hlen : a < sample.length := ha
  rw [after_mem, read_newMem h, byteWritten, List.getD_eq_getElem?_getD, List.getElem?_eq_getElem hlen]
  rfl

/-- Settles O29: cell by cell the two rows read as the constant `sample`, whose rows are the listed bytes. -/
theorem sampleBytesAfterLoadSample : Obligations.SampleBytesAfterLoadSample := by
  intro s hwf
  refine ⟨after .memLoadSample s, exec_eq_after _ s, ?_, ?_⟩
  · calc (List.range 16).map (fun i => (after .memLoadSample s).mem.read i)
      _ = (List.range 16).map (fun i => sample.getD i resetByte) := List.map_congr_left fun i hi =>
        read_after_memLoadSample hwf ((List.mem_range.mp hi).trans (by decide))
      _ = _ := rfl
  · calc (List.range 16).map (fun i => (after .memLoadSample s).mem.read (16 + i))
      _ = (List.range 16).map (fun i => sample.getD (16 + i) resetByte) := List.map_congr_left fun i hi =>
        read_after_memLoadSample hwf (Nat.add_lt_add_left (List.mem_range.mp hi) 16)
      _ = _ := rfl

end Sys2Proof.Machine

/-!
PROOFS. The command word (spec/30_encoding.md): decoding and encoding are inverse (O39, O40), the decoder is the opcode
map (O41), operands are read unchanged (O42), the spec's own vectors (O43), the flag names of a position (O44). What
the decoder answers is said once for each row, on a packed word; the obligations are read off those equations.
-/

namespace Sys2Proof

/-! ### The four formats on a packed word -/

@[simp] theorem decodeN_packWord (i : Instr) (op : Byte) : decodeN i (packWord op 0#16 0#8) = .ok i := by
  rw [decodeN, aField_packWord, bField_packWord, if_pos ⟨rfl, rfl⟩]

@[simp] theorem decodeP_packWord (f : Nat → Instr) (op b : Byte) :
    decodeP f (packWord op 0#16 b) = .ok (f b.toNat) := by
  rw [decodeP, aField_packWord, bField_packWord]
  exact if_pos rfl

@[simp] theorem decodeA_packWord (f : Word → Instr) (op : Byte) (a : Word) :
    decodeA f (packWord op a 0#8) = .ok (f a) := by
  rw [decodeA, aField_packWord, bField_packWord]
  exact if_pos rfl

@[simp] theorem decodeAB_packWord (f : Word → Byte → Instr) (op : Byte) (a : Word) (b : Byte) :
    decodeAB f (packWord op a b) = .ok (f a b) := by
  rw [decodeAB, aField_packWord, bField_packWord]

/-! ### The decoder on a packed word, row by row (R73) -/

section
variable (a : Word) (b : Byte)

@[simp] theorem decode_srInit : decode (packWord 0x10#8 0#16 0#8) = .ok .srInit := by simp [decode]
@[simp] theorem decode_srSet : decode (packWord 0x11#8 0#16 b) = .ok (.srSet b.toNat) := by simp [decode]
@[simp] theorem decode_srClr : decode (packWord 0x12#8 0#16 b) = .ok (.srClr b.toNat) := by simp [decode]
@[simp] theorem decode_srTest : decode (packWord 0x13#8 0#16 b) = .ok (.srTest b.toNat) := by simp [decode]
@[simp] theorem decode_srRead : decode (packWord 0x14#8 0#16 0#8) = .ok .srRead := by simp [decode]
@[simp] theorem decode_busInit : decode (packWord 0x20#8 0#16 0#8) = .ok .busInit := by simp [decode]
@[simp] theorem decode_busSet : decode (packWord 0x21#8 0#16 b) = .ok (.busSet b.toNat) := by simp [decode]
@[simp] theorem decode_busClr : decode (packWord 0x22#8 0#16 b) = .ok (.busClr b.toNat) := by simp [decode]
@[simp] theorem decode_busRepack : decode (packWord 0x23#8 a 0#8) = .ok (.busRepack a) := by simp [decode]
@[simp] theorem decode_busSplit : decode (packWord 0x24#8 a 0#8) = .ok (.busSplit a) := by simp [decode]
@[simp] theorem decode_busRead : decode (packWord 0x25#8 0#16 0#8) = .ok .busRead := by simp [decode]
@[simp] theorem decode_busReadBytes : decode (packWord 0x26#8 0#16 0#8) = .ok .busReadBytes := by simp [decode]
@[simp] theorem decode_memRead : decode (packWord 0x30#8 a 0#8) = .ok (.memRead a.toNat) := by simp [decode]
@[simp] theorem decode_memWrite : decode (packWord 0x31#8 a b) = .ok (.memWrite a.toNat b) := by simp [decode]
@[simp] theorem decode_memLoadSample : decode (packWord 0x32#8 0#16 0#8) = .ok .memLoadSample := by simp [decode]
@[simp] theorem decode_memDump : decode (packWord 0x33#8 a 0#8) = .ok (.memDump a.toNat) := by simp [decode]

end

/-! ### Decoding and encoding are inverse (R79) -/

/-- An operand that fits its field comes back from the field as the number it was. -/
theorem decode_encode {i : Instr} (h : i.wellFormed = true) : decode (encode i) = .ok i := by
  cases i with
  | srInit | srRead | busInit | busRead | busReadBytes | memLoadSample => decide
  | busRepack x => exact decode_busRepack x
  | busSplit x => exact decode_busSplit x
  | srSet pos | srClr pos | srTest pos | busSet pos | busClr pos =>
    have hpos : pos < 256 := Nat.lt_succ_of_le (of_decide_eq_true h)
    simp [encode, hpos]
  | memRead a | memWrite a | memDump a =>
    have ha : a < 65536 := Nat.lt_succ_of_le (of_decide_eq_true h)
    simp [encode, ha]

/-- Settles O39: the decoder's equation for the row, with the operand read back from its field. -/
theorem decodeUndoesEncode : Obligations.DecodeUndoesEncode := fun _ => decode_encode

/-- What a decoder may answer for `w`: an operation whose encoding is `w`, or that `w` is illegal (R74, R79). -/
def FaithfulAnswer (w : Command) (answer : Except Rejection Instr) : Prop :=
  (∃ i, answer = .ok i ∧ encode i = w) ∨ answer = .error (.illegalCommand w)

section
variable {w : Command} {op : Byte}

theorem faithful_decodeN {i : Instr} (hop : opField w = op) (henc : encode i = packWord op 0 0) :
    FaithfulAnswer w (decodeN i w) := by
  unfold decodeN
  split
  next hfields =>
    obtain ⟨ha, hb⟩ := hfields
    exact .inl ⟨i, rfl, by rw [henc, ← packWord_fields w, hop, ha, hb]⟩
  next => exact .inr rfl

theorem faithful_decodeP {f : Nat → Instr} (hop : opField w = op)
    (henc : encode (f (bField w).toNat) = packWord op 0 (bField w)) : FaithfulAnswer w (decodeP f w) := by
  unfold decodeP
  split
  next ha => exact .inl ⟨_, rfl, by rw [henc, ← hop, ← ha, packWord_fields]⟩
  next => exact .inr rfl

theorem faithful_decodeA {f : Word → Instr} (hop : opField w = op)
    (henc : encode (f (aField w)) = packWord op (aField w) 0) : FaithfulAnswer w (decodeA f w) := by
  unfold decodeA
  split
  next hb => exact .inl ⟨_, rfl, by rw [henc, ← hop, ← hb, packWord_fields]⟩
  next => exact .inr rfl

theorem faithful_decodeAB {f : Word → Byte → Instr} (hop : opField w = op)
    (henc : encode (f (aField w) (bField w)) = packWord op (aField w) (bField w)) :
    FaithfulAnswer w (decodeAB f w) :=
  .inl ⟨_, rfl, by rw [henc, ← hop, packWord_fields]⟩

/-- All that the decoder can answer: a field that the format reads is the operand's field in the encoding, a field that
it marks 0 was checked. -/
theorem faithful_decode (w : Command) : FaithfulAnswer w (decode w) := by
  unfold decode
  split
  next hop => exact faithful_decodeN hop rfl
  next hop => exact faithful_decodeP hop (by simp [encode])
  next hop => exact faithful_decodeP hop (by simp [encode])
  next hop => exact faithful_decodeP hop (by simp [encode])
  next hop => exact faithful_decodeN hop rfl
  next hop => exact faithful_decodeN hop rfl
  next hop => exact faithful_decodeP hop (by simp [encode])
  next hop => exact faithful_decodeP hop (by simp [encode])
  next hop => exact faithful_decodeA hop rfl
  next hop => exact faithful_decodeA hop rfl
  next hop => exact faithful_decodeN hop rfl
  next hop => exact faithful_decodeN hop rfl
  next hop => exact faithful_decodeA hop (by simp [encode])
  next hop => exact faithful_decodeAB hop (by simp [encode])
  next hop => exact faithful_decodeN hop rfl
  next hop => exact faithful_decodeA hop (by simp [encode])
  next => exact .inr rfl

theorem encode_of_decode {i : Instr} (h : decode w = .ok i) : encode i = w := by
  obtain ⟨j, hj, henc⟩ | herr := faithful_decode w
  · cases hj.symm.trans h
    exact henc
  · cases herr.symm.trans h

end

/-- Settles O40: the decoder's answer is faithful to the word, and its operands fit their fields. -/
theorem encodeUndoesDecode : Obligations.EncodeUndoesDecode := fun _ _ h =>
  ⟨Machine.wellFormed_of_decode h, encode_of_decode h⟩

/-! ### The opcode map (R73) -/

/-- The family `EncodedRow` for every operation. -/
theorem encodedRow (i : Instr) : Laws.EncodedRow.Statement i := by
  cases i with
  | srInit => exact Laws.EncodedRow.srInit
  | srSet pos => exact Laws.EncodedRow.srSet pos
  | srClr pos => exact Laws.EncodedRow.srClr pos
  | srTest pos => exact Laws.EncodedRow.srTest pos
  | srRead => exact Laws.EncodedRow.srRead
  | busInit => exact Laws.EncodedRow.busInit
  | busSet pos => exact Laws.EncodedRow.busSet pos
  | busClr pos => exact Laws.EncodedRow.busClr pos
  | busRepack x => exact Laws.EncodedRow.busRepack x
  | busSplit x => exact Laws.EncodedRow.busSplit x
  | busRead => exact Laws.EncodedRow.busRead
  | busReadBytes => exact Laws.EncodedRow.busReadBytes
  | memRead a => exact Laws.EncodedRow.memRead a
  | memWrite a v => exact Laws.EncodedRow.memWrite a v
  | memLoadSample => exact Laws.EncodedRow.memLoadSample
  | memDump n => exact Laws.EncodedRow.memDump n

section
variable {w : Command}

/-- A word that decodes is selected by the row of the operation it decodes to. -/
theorem exists_row_of_decode {i : Instr} (h : decode w = .ok i) :
    ∃ r ∈ opcodeTable, r.mnemonic = i.mnemonic ∧ w &&& r.mask = r.pattern := by
  obtain ⟨r, hr, hname, hsel⟩ := encodedRow i (Machine.wellFormed_of_decode h)
  rw [encode_of_decode h] at hsel
  exact ⟨r, hr, hname, beq_iff_eq.mp hsel⟩

theorem opField_and (w m : Command) : opField (w &&& m) = opField w &&& opField m := by
  simp [opField, BitVec.extractLsb'_and]

/-- Every row compares the whole field `OP`. -/
theorem opField_of_selected {r : OpcodeRow} (hr : r ∈ opcodeTable) (hsel : w &&& r.mask = r.pattern) :
    opField w = opField r.pattern := by
  have hmask : ∀ r ∈ opcodeTable, opField r.mask = 0xFF#8 := by decide
  calc opField w
    _ = opField w &&& opField r.mask := by rw [hmask r hr]; exact BitVec.and_allOnes.symm
    _ = opField r.pattern := by rw [← opField_and, hsel]

/-- No two rows have the same `OP`. -/
theorem row_eq_of_opField_eq :
    ∀ r ∈ opcodeTable, ∀ r' ∈ opcodeTable, opField r.pattern = opField r'.pattern → r = r' := by
  decide

theorem row_unique {r r' : OpcodeRow} (hr : r ∈ opcodeTable) (hr' : r' ∈ opcodeTable)
    (hsel : w &&& r.mask = r.pattern) (hsel' : w &&& r'.mask = r'.pattern) : r = r' :=
  row_eq_of_opField_eq r hr r' hr' ((opField_of_selected hr hsel).symm.trans (opField_of_selected hr' hsel'))

end

/-! A selected word has its row's `OP`, and 0 in the operand fields that the row's mask keeps. -/

section
variable {w : Command} {op : Byte}

theorem eq_packWord_of_selected (ma : Word) (mb : Byte) (h : w &&& packWord 0xFF ma mb = packWord op 0 0) :
    w = packWord op (aField w) (bField w) ∧ aField w &&& ma = 0 ∧ bField w &&& mb = 0 := by
  rw [← packWord_fields w, packWord_and] at h
  obtain ⟨hop, ha, hb⟩ := packWord_inj h
  have hop : opField w = op := BitVec.and_allOnes.symm.trans hop
  exact ⟨by rw [← hop, packWord_fields], ha, hb⟩

theorem decodes_of_selectedN {i : Instr} (hdec : decode (packWord op 0 0) = .ok i)
    (h : w &&& 0xFFFFFFFF#32 = packWord op 0 0) : ∃ i, decode w = .ok i := by
  obtain ⟨hw, ha, hb⟩ := eq_packWord_of_selected 0xFFFF 0xFF h
  have ha : aField w = 0 := BitVec.and_allOnes.symm.trans ha
  have hb : bField w = 0 := BitVec.and_allOnes.symm.trans hb
  rw [hw, ha, hb]
  exact ⟨i, hdec⟩

theorem decodes_of_selectedP {f : Byte → Instr} (hdec : ∀ b, decode (packWord op 0 b) = .ok (f b))
    (h : w &&& 0xFFFFFF00#32 = packWord op 0 0) : ∃ i, decode w = .ok i := by
  obtain ⟨hw, ha, -⟩ := eq_packWord_of_selected 0xFFFF 0x00 h
  have ha : aField w = 0 := BitVec.and_allOnes.symm.trans ha
  rw [hw, ha]
  exact ⟨_, hdec _⟩

theorem decodes_of_selectedA {f : Word → Instr} (hdec : ∀ a, decode (packWord op a 0) = .ok (f a))
    (h : w &&& 0xFF0000FF#32 = packWord op 0 0) : ∃ i, decode w = .ok i := by
  obtain ⟨hw, -, hb⟩ := eq_packWord_of_selected 0x0000 0xFF h
  have hb : bField w = 0 := BitVec.and_allOnes.symm.trans hb
  rw [hw, hb]
  exact ⟨_, hdec _⟩

theorem decodes_of_selectedAB {f : Word → Byte → Instr} (hdec : ∀ a b, decode (packWord op a b) = .ok (f a b))
    (h : w &&& 0xFF000000#32 = packWord op 0 0) : ∃ i, decode w = .ok i := by
  obtain ⟨hw, -, -⟩ := eq_packWord_of_selected 0x0000 0x00 h
  rw [hw]
  exact ⟨_, hdec _ _⟩

/-- A word that a row selects decodes. -/
theorem decodes_of_selected {r : OpcodeRow} (hr : r ∈ opcodeTable) (h : w &&& r.mask = r.pattern) :
    ∃ i, decode w = .ok i := by
  simp only [opcodeTable, List.cons_append, List.nil_append, List.mem_cons, List.not_mem_nil, or_false] at hr
  rcases hr with rfl | rfl | rfl | rfl | rfl | rfl | rfl | rfl | rfl | rfl | rfl | rfl | rfl | rfl | rfl | rfl
  · exact decodes_of_selectedN decode_srInit h
  · exact decodes_of_selectedP decode_srSet h
  · exact decodes_of_selectedP decode_srClr h
  · exact decodes_of_selectedP decode_srTest h
  · exact decodes_of_selectedN decode_srRead h
  · exact decodes_of_selectedN decode_busInit h
  · exact decodes_of_selectedP decode_busSet h
  · exact decodes_of_selectedP decode_busClr h
  · exact decodes_of_selectedA decode_busRepack h
  · exact decodes_of_selectedA decode_busSplit h
  · exact decodes_of_selectedN decode_busRead h
  · exact decodes_of_selectedN decode_busReadBytes h
  · exact decodes_of_selectedA decode_memRead h
  · exact decodes_of_selectedAB decode_memWrite h
  · exact decodes_of_selectedN decode_memLoadSample h
  · exact decodes_of_selectedA decode_memDump h

end

/-- Settles O41: a selected word decodes, and its operation's row is the only row that selects it; a word that decodes
is selected by that row. -/
theorem decoderAgreesWithTheOpcodeMap : Obligations.DecoderAgreesWithTheOpcodeMap := by
  refine ⟨fun w r hr hsel => ?_, fun w r hr r' hr' => row_unique hr hr', fun w hnone => ?_⟩
  · obtain ⟨i, hi⟩ := decodes_of_selected hr hsel
    obtain ⟨r', hr', hname, hsel'⟩ := exists_row_of_decode hi
    exact ⟨i, hi, by rw [row_unique hr hr' hsel hsel', hname]⟩
  · obtain ⟨i, hi, -⟩ | herr := faithful_decode w
    · obtain ⟨r, hr, -, hsel⟩ := exists_row_of_decode hi
      exact absurd hsel (hnone r hr)
    · exact herr

/-! ### The words as numbers (R75) -/

theorem toNat_packWord (op : Byte) (a : Word) (b : Byte) :
    (packWord op a b).toNat = op.toNat * 0x1000000 + a.toNat * 0x100 + b.toNat := by
  have happend : (packWord op a b).toNat = BitVec.toNat (op ++ a ++ b) := rfl
  rw [happend, BitVec.toNat_append, BitVec.toNat_append, ← Nat.shiftLeft_add_eq_or_of_lt a.isLt,
    ← Nat.shiftLeft_add_eq_or_of_lt b.isLt, Nat.shiftLeft_eq, Nat.shiftLeft_eq]
  ring

/-- The word a number spells is the packed word of the numbers in its fields. -/
theorem ofNat_eq_packWord (op : Byte) {a b : Nat} (ha : a < 65536) (hb : b < 256) :
    BitVec.ofNat 32 (op.toNat * 0x1000000 + a * 256 + b) = packWord op (.ofNat 16 a) (.ofNat 8 b) := by
  have hop := op.isLt
  apply BitVec.eq_of_toNat_eq
  rw [toNat_packWord, BitVec.toNat_ofNat, BitVec.toNat_ofNat, BitVec.toNat_ofNat, Nat.mod_eq_of_lt ha,
    Nat.mod_eq_of_lt hb, Nat.mod_eq_of_lt (by omega)]

/-- A position's word. -/
theorem ofNat_eq_packWord_pos (op : Byte) {pos : Nat} (hpos : pos < 256) :
    BitVec.ofNat 32 (op.toNat * 0x1000000 + pos) = packWord op 0 (.ofNat 8 pos) := by
  simpa using ofNat_eq_packWord op (a := 0) (by decide) hpos

/-- A word operand's word. -/
theorem ofNat_eq_packWord_word (op : Byte) {a : Nat} (ha : a < 65536) :
    BitVec.ofNat 32 (op.toNat * 0x1000000 + a * 256) = packWord op (.ofNat 16 a) 0 := by
  simpa using ofNat_eq_packWord op (b := 0) ha (by decide)

/-- Settles O42: the number's fields are its operands. -/
theorem decodeReadsOperandsUnchanged : Obligations.DecodeReadsOperandsUnchanged := by
  have hbyte (pos : Nat) (hpos : pos < 256) : (BitVec.ofNat 8 pos).toNat = pos := by
    rw [BitVec.toNat_ofNat, Nat.mod_eq_of_lt hpos]
  have hword (a : Nat) (ha : a < 65536) : (BitVec.ofNat 16 a).toNat = a := by
    rw [BitVec.toNat_ofNat, Nat.mod_eq_of_lt ha]
  refine ⟨fun pos hpos => ?_, fun a ha => ?_, fun a v ha hv => ?_⟩
  · have hdec {f : Nat → Instr} (op : Byte) (h : ∀ b, decode (packWord op 0 b) = .ok (f b.toNat)) :
        decode (.ofNat 32 (op.toNat * 0x1000000 + pos)) = .ok (f pos) := by
      rw [ofNat_eq_packWord_pos op hpos, h, hbyte pos hpos]
    exact ⟨hdec 0x11 decode_srSet, hdec 0x12 decode_srClr, hdec 0x13 decode_srTest, hdec 0x21 decode_busSet,
      hdec 0x22 decode_busClr⟩
  · have hdec {f : Word → Instr} (op : Byte) (h : ∀ x, decode (packWord op x 0) = .ok (f x)) :
        decode (.ofNat 32 (op.toNat * 0x1000000 + a * 256)) = .ok (f (.ofNat 16 a)) := by
      rw [ofNat_eq_packWord_word op ha, h]
    have hread := hdec 0x30 decode_memRead
    have hdump := hdec 0x33 decode_memDump
    rw [hword a ha] at hread hdump
    exact ⟨hdec 0x23 decode_busRepack, hdec 0x24 decode_busSplit, hread, hdump⟩
  · calc decode (.ofNat 32 (0x31000000 + a * 256 + v))
      _ = decode (packWord 0x31 (.ofNat 16 a) (.ofNat 8 v)) := congrArg decode (ofNat_eq_packWord 0x31 ha hv)
      _ = .ok (.memWrite (BitVec.ofNat 16 a).toNat (.ofNat 8 v)) := decode_memWrite _ _
      _ = .ok (.memWrite a (.ofNat 8 v)) := by rw [hword a ha]

/-- Settles O43: the decoder computes each vector. -/
theorem decodeOfWrittenWords : Obligations.DecodeOfWrittenWords := by
  unfold Obligations.DecodeOfWrittenWords
  decide

end Sys2Proof

namespace Sys2Proof.Machine

/-! ### The flag names of a position (R81) -/

theorem parseFlagPos_letter (f : Flag) : parseFlagPos [f.letter] = some f.bit := by
  cases f <;> rfl

/-- No flag's letter is a digit. -/
theorem parseNumber_letter (f : Flag) : parseNumber [f.letter] = none := by
  cases f <;> rfl

/-- Settles O44: the SR operations read the position with `parseFlagPos`, the bus operations with `parseNumber`. -/
theorem flagNamesSpellPositions : Obligations.FlagNamesSpellPositions := by
  refine ⟨fun f => ?_, by decide⟩
  have hpos (op : Nat → Instr) : (parseFlagPos [f.letter]).map op = some (op f.bit) := by
    rw [parseFlagPos_letter, Option.map_some]
  have hnum (op : Nat → Instr) : (parseNumber [f.letter]).map op = none := by
    rw [parseNumber_letter, Option.map_none]
  exact ⟨hpos .srSet, hpos .srClr, hpos .srTest, hnum .busSet, hnum .busClr⟩

end Sys2Proof.Machine

/-!
PROOFS. Steps and request streams (spec/00_scope.md R6, spec/20_memory.md R60, spec/60_exceptions.md R215): what a step
keeps (O3, O48), what it takes and adds (O45, O46, O47), and what a whole stream leaves (O22, O49, O50, O51). A stream's
run is the fold of `afterRequest` over it, so every claim about streams is an induction on the list of requests.
-/

namespace Sys2Proof.Machine

/-! ### The invariant -/

/-- Setting a flag leaves the upper byte of `SR` as it was (R28). -/
theorem highByte_setBit {pos : Nat} (hpos : pos < 8) (v : Word) : highByte (setBit v pos) = highByte v := by
  apply BitVec.eq_of_getLsbD_eq
  intro i _
  rw [getLsbD_highByte, getLsbD_highByte, getLsbD_setBit_of_ne v (by omega)]

theorem highByte_clearBit {pos : Nat} (hpos : pos < 8) (v : Word) : highByte (clearBit v pos) = highByte v := by
  apply BitVec.eq_of_getLsbD_eq
  intro i _
  rw [getLsbD_highByte, getLsbD_highByte, getLsbD_clearBit_of_ne v (by omega)]

/-- No operation takes the upper byte of `SR` away from `0xFF` (R28). -/
theorem highByte_newSr {sr : Word} (h : highByte sr = 0xFF) (i : Instr) : highByte (newSr i sr) = 0xFF := by
  cases i with
  | srInit => exact (by decide : highByte 0xFF00 = 0xFF)
  | srSet pos =>
    by_cases hpos : pos < 8
    · rw [newSr, if_pos hpos, highByte_setBit hpos, h]
    · rw [newSr, if_neg hpos, h]
  | srClr pos =>
    by_cases hpos : pos < 8
    · rw [newSr, if_pos hpos, highByte_clearBit hpos, h]
    · rw [newSr, if_neg hpos, h]
  | srTest | srRead => exact h
  | busInit | busSet | busClr | busRepack | busSplit | busRead | busReadBytes => exact h
  | memRead | memWrite | memLoadSample | memDump => exact h

theorem after_inv {s : State} (h : s.Inv) (i : Instr) : (after i s).Inv :=
  ⟨newMem_wf h.1 i, highByte_newSr h.2 i⟩

/-- Settles O3: no cell is listed at reset, and `SR` is `0xFF00`. -/
theorem resetMeetsTheInvariant : Obligations.ResetMeetsTheInvariant := ⟨rfl, by decide⟩

/-! ### One request -/

/-- What holds of the state that a request's operation leaves, and of the state with its command word's error answered,
holds of the state that the request leaves. -/
theorem afterRequest_elim {P : State → Prop} {r : Request} {s : State}
    (hop : ∀ i, r.resolve = .ok i → P (after i s)) (herror : ∀ e, P (s.reply (.error e))) :
    P (afterRequest r s) := by
  unfold afterRequest
  rcases hr : r.resolve with e | i
  · exact herror e
  · exact hop i hr

theorem afterRequest_inv {s : State} (h : s.Inv) (r : Request) : (afterRequest r s).Inv :=
  afterRequest_elim (fun i _ => after_inv h i) fun _ => h

theorem afterRequest_replies (r : Request) (s : State) :
    ∃ reply, (afterRequest r s).replies = s.replies ++ [reply] :=
  afterRequest_elim (P := fun t => ∃ reply, t.replies = s.replies ++ [reply]) (fun i _ => ⟨answer i s, rfl⟩)
    fun e => ⟨.error e, rfl⟩

/-! ### One step -/

/-- Settles O48: a step does nothing or performs one request, and every request keeps the invariant. -/
theorem stepKeepsTheInvariant : Obligations.StepKeepsTheInvariant := by
  intro s t hinv ht
  rcases hq : s.requests with _ | ⟨r, rest⟩
  · obtain rfl : s = t := Host.Outcome.next.inj ((step_idle hq).symm.trans ht)
    exact hinv
  · obtain rfl := Host.Outcome.next.inj ((step_cons hq).symm.trans ht)
    exact afterRequest_inv (s := s.take rest) hinv r

/-- Settles O47: the request taken is performed or rejected, and both add one reply. -/
theorem stepAnswersExactlyOneRequest : Obligations.StepAnswersExactlyOneRequest := by
  intro s r rest hq
  obtain ⟨reply, hreply⟩ := afterRequest_replies r (s.take rest)
  exact ⟨afterRequest r (s.take rest), reply, step_cons hq, afterRequest_requests r (s.take rest), hreply⟩

theorem resolve_word_error {w w' : Command} (h : decode w = .error (.illegalCommand w')) :
    (Request.word w).resolve = .error (.illegalCommand w') := by
  simp [Request.resolve, h]

/-- Settles O45: the four cases of a step. -/
theorem stepPerformsTheNextRequest : Obligations.StepPerformsTheNextRequest :=
  ⟨fun _ _ _ _ hq hdec => step_performs hq (resolve_word_ok hdec),
    fun _ _ _ hq hdec => step_rejects hq (resolve_word_error hdec),
    fun _ i _ hq => step_performs hq (resolve_op i), fun _ => step_idle⟩

theorem decode_of_decodeTableWord {nbits w : Nat} {i : Instr} (h : decodeTableWord nbits w = some i) :
    decode (tableWord nbits w) = .ok i := by
  unfold decodeTableWord at h
  rcases hd : decode (tableWord nbits w) with e | j
  · rw [hd] at h
    cases h
  · rw [hd] at h
    cases h
    rfl

/-- Settles O46: the word is the front of the stream, and taking it gives back the state it was put into. -/
theorem stepAfterWithFetchWord : Obligations.StepAfterWithFetchWord := fun s _ _ _ hdec =>
  step_performs (State.issue_requests s _) (resolve_word_ok (decode_of_decodeTableWord hdec))

/-! ### A stream -/

/-- No request looks at the requests behind it. -/
theorem afterRequest_take (r : Request) (s : State) (rest : List Request) :
    afterRequest r (s.take rest) = (afterRequest r s).take rest := by
  rcases hr : r.resolve with e | i <;> simp only [afterRequest, hr] <;> rfl

/-- The state that a stream leaves, its requests performed in their order. -/
def afterStream (s : State) (requests : List Request) : State := requests.foldl (fun t r => afterRequest r t) s

theorem afterStream_cons (s : State) (r : Request) (rest : List Request) :
    afterStream s (r :: rest) = afterStream (afterRequest r s) rest := rfl

theorem afterStream_append (s : State) (front back : List Request) :
    afterStream s (front ++ back) = afterStream (afterStream s front) back := List.foldl_append

/-- Everything a stream can do, said once: `perform` is the pure function `afterStream`, with no request left. -/
theorem perform_eq_afterStream (s : State) (requests : List Request) :
    perform s requests = .next ((afterStream s requests).take []) := by
  induction requests generalizing s with
  | nil => rfl
  | cons r rest ih =>
    calc perform s (r :: rest)
      _ = perform ((afterRequest r s).take rest) rest := by rw [perform_cons, afterRequest_take]
      _ = perform (afterRequest r s) rest := rfl
      _ = .next ((afterStream s (r :: rest)).take []) := ih _

/-- The end of a stream that is performed. -/
theorem eq_afterStream {s t : State} {requests : List Request} (h : perform s requests = .next t) :
    t = (afterStream s requests).take [] :=
  (Host.Outcome.next.inj ((perform_eq_afterStream s requests).symm.trans h)).symm

/-- What holds at the start of a stream and is kept by each of its requests holds at its end. -/
theorem afterStream_keeps {P : State → Prop} {s : State} {requests : List Request} (hs : P s)
    (hstep : ∀ r ∈ requests, ∀ t, P t → P (afterRequest r t)) : P (afterStream s requests) :=
  List.foldlRecOn requests _ hs fun t ht r hr => hstep r hr t ht

theorem afterStream_replies (s : State) (requests : List Request) :
    ∃ replies, (afterStream s requests).replies = s.replies ++ replies ∧ replies.length = requests.length := by
  induction requests generalizing s with
  | nil => exact ⟨[], (List.append_nil _).symm, rfl⟩
  | cons r rest ih =>
    obtain ⟨reply, hreply⟩ := afterRequest_replies r s
    obtain ⟨replies, hreplies, hlen⟩ := ih (afterRequest r s)
    exact ⟨reply :: replies, by rw [afterStream_cons, hreplies, hreply, List.append_assoc]; rfl,
      congrArg Nat.succ hlen⟩

/-- Settles O49: a stream's run is `afterStream`, which adds one reply for each request. -/
theorem everyStreamIsAnsweredToItsEnd : Obligations.EveryStreamIsAnsweredToItsEnd := by
  intro s requests
  obtain ⟨replies, hreplies, hlen⟩ := afterStream_replies s requests
  exact ⟨_, replies, perform_eq_afterStream s requests, rfl, hreplies, hlen⟩

/-! ### The latch -/

/-- Every operation but BUS.SPLIT leaves `BB` as it was (R31). -/
theorem newBb_eq_self {i : Instr} (hSplit : ∀ x, i ≠ .busSplit x) (bb : Latch) : newBb i bb = bb := by
  cases i with
  | busSplit x => exact absurd rfl (hSplit x)
  | busInit | busSet | busClr | busRepack | busRead | busReadBytes => rfl
  | srInit | srSet | srClr | srTest | srRead => rfl
  | memRead | memWrite | memLoadSample | memDump => rfl

/-- No operation makes `BB` `Unwritten` (R232). -/
theorem newBb_ne_unwritten {bb : Latch} (h : bb ≠ .unwritten) (i : Instr) : newBb i bb ≠ .unwritten := by
  cases i with
  | busSplit x => exact nofun
  | busInit | busSet | busClr | busRepack | busRead | busReadBytes => exact h
  | srInit | srSet | srClr | srTest | srRead => exact h
  | memRead | memWrite | memLoadSample | memDump => exact h

theorem afterRequest_bb_ne_unwritten {s : State} (h : s.bb ≠ .unwritten) (r : Request) :
    (afterRequest r s).bb ≠ .unwritten :=
  afterRequest_elim (P := fun t => t.bb ≠ .unwritten) (fun i _ => newBb_ne_unwritten h i) fun _ => h

/-- A request that is no BUS.SPLIT leaves `BB` as it was. -/
theorem afterRequest_bb {r : Request} (hSplit : ∀ x, r.resolve ≠ .ok (.busSplit x)) (s : State) :
    (afterRequest r s).bb = s.bb :=
  afterRequest_elim (P := fun t => t.bb = s.bb)
    (fun _ hi => newBb_eq_self (fun x hx => hSplit x (hx ▸ hi)) s.bb) fun _ => rfl

theorem afterStream_bb {requests : List Request} (hSplit : ∀ r ∈ requests, ∀ x, r.resolve ≠ .ok (.busSplit x))
    (s : State) : (afterStream s requests).bb = s.bb :=
  afterStream_keeps (P := fun t => t.bb = s.bb) rfl fun r hr t ht => (afterRequest_bb (hSplit r hr) t).trans ht

/-- Settles O21: by operation, and by step through the request taken. -/
theorem onlySplitWritesTheLatch : Obligations.OnlySplitWritesTheLatch := by
  refine ⟨fun _ s t ht hSplit => ?_, fun s t ht hbb => ?_⟩
  · rw [eq_after ht, after_bb, newBb_eq_self hSplit]
  · rcases hq : s.requests with _ | ⟨r, rest⟩
    · obtain rfl : s = t := Host.Outcome.next.inj ((step_idle hq).symm.trans ht)
      exact hbb
    · obtain rfl := Host.Outcome.next.inj ((step_cons hq).symm.trans ht)
      exact afterRequest_bb_ne_unwritten (s := s.take rest) hbb r

/-- BUS.READBYTES answers the pair that the latch holds. -/
theorem exec_busReadBytes_of_written {s : State} {lo hi : Byte} (h : s.bb = .written lo hi) :
    exec .busReadBytes s = .next (s.reply (.done (.pair lo hi))) := by
  simp only [exec, execBusReadBytes, h, respond_eq]

theorem exec_busReadBytes_of_unwritten {s : State} (h : s.bb = .unwritten) :
    exec .busReadBytes s = .next (s.reply (.error .unwrittenLatch)) := by
  simp only [exec, execBusReadBytes, h, raise_eq]

/-- Settles O20: the two states of the latch. -/
theorem readBytesAnswersTheLatch : Obligations.ReadBytesAnswersTheLatch :=
  ⟨fun _ _ _ => exec_busReadBytes_of_written, fun _ => exec_busReadBytes_of_unwritten⟩

/-- Settles O2: reset's own fields, and BUS.READBYTES of a latch not written yet. -/
theorem resetLatchIsUnwritten : Obligations.ResetLatchIsUnwritten :=
  ⟨rfl, rfl, rfl, exec_busReadBytes_of_unwritten rfl⟩

/-- Settles O22: BUS.SPLIT puts the pair it answers into the latch, and the stream between leaves it there. -/
theorem readBytesAnswersTheLastSplit : Obligations.ReadBytesAnswersTheLastSplit := by
  intro s x
  refine ⟨after (.busSplit x) s, _, _, exec_eq_after _ s, rfl, fun between u hSplit hu => ?_⟩
  obtain rfl := eq_afterStream hu
  exact exec_busReadBytes_of_written (afterStream_bb hSplit _)

/-! ### Memory along a stream -/

theorem afterRequest_mem_wf {s : State} (h : s.mem.wf = true) (r : Request) : (afterRequest r s).mem.wf = true :=
  afterRequest_elim (P := fun t => t.mem.wf = true) (fun i _ => newMem_wf h i) fun _ => h

theorem afterStream_mem_wf {s : State} (h : s.mem.wf = true) (requests : List Request) :
    (afterStream s requests).mem.wf = true :=
  afterStream_keeps (P := fun t => t.mem.wf = true) h fun r _ _ ht => afterRequest_mem_wf ht r

/-- What a cell holds after a request. -/
theorem read_afterRequest {s : State} (h : s.mem.wf = true) (r : Request) (a : Nat) :
    (afterRequest r s).mem.read a = (r.byteWritten a).getD (s.mem.read a) := by
  rcases hr : r.resolve with e | i
  · simp only [afterRequest, Request.byteWritten, hr]
    rfl
  · simp only [afterRequest, Request.byteWritten, hr]
    exact read_newMem h i a

/-- What a cell holds after a stream (R60). -/
theorem read_afterStream {s : State} (h : s.mem.wf = true) (requests : List Request) (a : Nat) :
    (afterStream s requests).mem.read a = lastWrite (s.mem.read a) a requests := by
  induction requests generalizing s with
  | nil => rfl
  | cons r rest ih => rw [afterStream_cons, ih (afterRequest_mem_wf h r), read_afterRequest h]; rfl

/-- Settles O50: by induction on the stream, each request leaving in the cell the byte it writes there. -/
theorem cellsHoldTheLastWrite : Obligations.CellsHoldTheLastWrite := by
  intro s requests t a hwf _ ht
  rw [eq_afterStream ht]
  exact read_afterStream hwf requests a

/-! ### Zeroing memory -/

/-- The requests that write zero to each of the first `n` cells. -/
def zeroWrites (n : Nat) : List Request := (List.range n).map fun a => .op (.memWrite a 0x00)

theorem zeroWrites_succ (n : Nat) : zeroWrites (n + 1) = zeroWrites n ++ [.op (.memWrite n 0x00)] := by
  simp [zeroWrites, List.range_succ]

theorem lastWrite_append (v : Byte) (a : Nat) (front back : List Request) :
    lastWrite v a (front ++ back) = lastWrite (lastWrite v a front) a back := List.foldl_append

/-- A write of zero within the address space leaves zero in its cell and every other cell as it was. -/
theorem lastWrite_zeroWrite {k : Nat} (hk : k ≤ 0xFFFF) (v : Byte) (a : Nat) :
    lastWrite v a [.op (.memWrite k 0x00)] = if a = k then 0x00 else v := by
  by_cases hak : a = k <;> simp [lastWrite, Request.byteWritten, byteWritten, hak, hk]

/-- Each of the cells that are zeroed holds zero. -/
theorem lastWrite_zeroWrites {a n : Nat} (ha : a < n) (hn : n ≤ 0x10000) (v : Byte) :
    lastWrite v a (zeroWrites n) = 0x00 := by
  induction n with
  | zero => omega
  | succ k ih =>
    rw [zeroWrites_succ, lastWrite_append, lastWrite_zeroWrite (Nat.le_of_lt_succ hn)]
    by_cases hak : a = k
    · rw [if_pos hak]
    · rw [if_neg hak, ih (by omega) (by omega)]

/-- From a canonical memory, zeroing every cell leaves no cell listed. -/
theorem mem_afterStream_zeroWrites {s : State} (h : s.mem.wf = true) {n : Nat} (hn : n = 0x10000) :
    (afterStream s (zeroWrites n)).mem = [] := by
  have hwf := afterStream_mem_wf h (zeroWrites n)
  refine Memory.ext hwf rfl fun a => ?_
  by_cases ha : a < n
  · rw [read_afterStream h, lastWrite_zeroWrites ha hn.le]
    rfl
  · exact Memory.read_above hwf (by omega)

theorem bb_afterStream_zeroWrites (s : State) (n : Nat) : (afterStream s (zeroWrites n)).bb = s.bb := by
  refine afterStream_bb (fun r hr x => ?_) s
  obtain ⟨a, -, rfl⟩ := List.mem_map.mp hr
  exact nofun

theorem afterStream_inits (s : State) (requests : List Request) :
    afterStream s (requests ++ [.op .srInit, .op .busInit]) = after .busInit (after .srInit (afterStream s requests)) :=
  afterStream_append s requests _

/-- The state after zeroing the address space and the two inits (R230). The size of the space is a variable, so that
nothing unrolls the 65536 requests. -/
theorem perform_zeroing_inits {s : State} (h : s.mem.wf = true) {n : Nat} (hn : n = 0x10000) :
    ∃ t, perform s ((List.range n).map (fun a => Request.op (.memWrite a 0x00)) ++ [.op .srInit, .op .busInit]) =
        .next t ∧
      t.sr = State.reset.sr ∧ t.bv = State.reset.bv ∧ t.mem = State.reset.mem ∧ t.bb = s.bb := by
  refine ⟨_, perform_eq_afterStream s (zeroWrites n ++ [.op .srInit, .op .busInit]), ?_⟩
  rw [afterStream_inits]
  exact ⟨rfl, rfl, mem_afterStream_zeroWrites h hn, bb_afterStream_zeroWrites s n⟩

/-- Settles O51: the writes leave no cell listed and the latch as it was; the two inits write `SR` and `BV`. -/
theorem zeroingAndInitsRestoreTheResetValues : Obligations.ZeroingAndInitsRestoreTheResetValues :=
  fun _ hwf => perform_zeroing_inits hwf rfl

end Sys2Proof.Machine

/-!
PROOFS. The status register (spec/41_status_register.md: O4 to O7, O9) and the address bus (spec/42_address_bus.md: O13
to O15, O17 to O19), with the position check of both (O12). One equation for each operation says its outcome; laws over
two requests go through `after`.
-/

namespace Sys2Proof.Machine

/-! ### One equation for each operation at a valid position -/

section
variable {pos : Nat} (s : State)

theorem exec_srSet (h : pos < 8) :
    exec (.srSet pos) s = .next ((s.setSr (setBit s.sr pos)).reply (.done (.word (setBit s.sr pos)))) :=
  (updateSr_eq setBit pos s).trans (if_pos h)

theorem exec_srClr (h : pos < 8) :
    exec (.srClr pos) s = .next ((s.setSr (clearBit s.sr pos)).reply (.done (.word (clearBit s.sr pos)))) :=
  (updateSr_eq clearBit pos s).trans (if_pos h)

theorem exec_srTest (h : pos < 8) :
    exec (.srTest pos) s = .next (s.reply (.done (.bit (s.sr.getLsbD pos)))) :=
  (execSrTest_eq pos s).trans (if_pos h)

theorem exec_busSet (h : pos < 16) :
    exec (.busSet pos) s = .next ((s.setBv (setBit s.bv pos)).reply (.done (.word (setBit s.bv pos)))) :=
  (updateBv_eq setBit pos s).trans (if_pos h)

theorem exec_busClr (h : pos < 16) :
    exec (.busClr pos) s = .next ((s.setBv (clearBit s.bv pos)).reply (.done (.word (clearBit s.bv pos)))) :=
  (updateBv_eq clearBit pos s).trans (if_pos h)

theorem execBusSplitIn_eq (mode : SplitMode) (x : Word) :
    execBusSplitIn mode x s = .next ((s.setBb (splitSlots mode x).1 (splitSlots mode x).2).reply
      (.done (.pair (splitSlots mode x).1 (splitSlots mode x).2))) := rfl

end

/-! ### The status register -/

/-- Settles O4: SR.INIT writes the constant `srInitial` and answers it. -/
theorem srInitWritesAndAnswersFF00 : Obligations.SrInitWritesAndAnswersFF00 := fun _ => rfl

/-- Settles O5: the equations of SR.SET and SR.CLR, `setBit` and `clearBit` written out. -/
theorem srSetAndClrWriteOneFlag : Obligations.SrSetAndClrWriteOneFlag := fun s _ hpos =>
  ⟨exec_srSet s hpos, exec_srClr s hpos⟩

/-- Settles O6: the equation of SR.TEST, and SR.READ, which has no check. -/
theorem srTestAndReadAnswerTheRegister : Obligations.SrTestAndReadAnswerTheRegister :=
  ⟨fun s _ hpos => exec_srTest s hpos, fun _ => rfl⟩

/-- No operation but SR.SET of that flag makes a flag 1. -/
theorem getLsbD_of_getLsbD_newSr {i : Instr} {pos : Nat} {sr : Word} (hpos : pos < 8) (hi : i ≠ .srSet pos)
    (h : (newSr i sr).getLsbD pos = true) : sr.getLsbD pos = true := by
  cases i with
  | srInit =>
    have hinit : ∀ p < 8, BitVec.getLsbD 0xFF00#16 p = false := by decide
    exact absurd ((hinit pos hpos).symm.trans h) Bool.false_ne_true
  | srSet q =>
    have hq : pos ≠ q := fun hpq => hi (hpq ▸ rfl)
    by_cases hq8 : q < 8
    · rwa [newSr, if_pos hq8, getLsbD_setBit_of_ne sr hq] at h
    · rwa [newSr, if_neg hq8] at h
  | srClr q =>
    by_cases hq8 : q < 8
    · rw [newSr, if_pos hq8, getLsbD_clearBit, Bool.and_eq_true] at h
      exact h.1
    · rwa [newSr, if_neg hq8] at h
  | srTest | srRead => exact h
  | busInit | busSet | busClr | busRepack | busSplit | busRead | busReadBytes => exact h
  | memRead | memWrite | memLoadSample | memDump => exact h

/-- Settles O7: the equations of the four operations at position 5, and `getLsbD_of_getLsbD_newSr` there. -/
theorem unusedFlagIsAnOrdinaryBit : Obligations.UnusedFlagIsAnOrdinaryBit := by
  intro s
  have hpos : 5 < 8 := by decide
  refine ⟨⟨_, rfl, (by decide : srInitial.getLsbD 5 = false)⟩, exec_srSet s hpos, exec_srClr s hpos,
    exec_srTest s hpos, fun i t hi ht hbit => ?_⟩
  rw [eq_after ht] at hbit
  exact getLsbD_of_getLsbD_newSr hpos hi hbit

/-! ### Two operations on the status register -/

/-- A StatusRegister operation leaves `SR` and one reply; all else stays. -/
theorem after_of_isSr {i : Instr} (hi : i.isSr = true) (s : State) :
    after i s = (s.setSr (newSr i s.sr)).reply (answer i s) := by
  obtain ⟨hBus, hMem⟩ : i.isBus = false ∧ i.isMem = false := by simpa [hi] using family_cases i
  rw [after, newBv_of_not_isBus hBus, newBb_of_not_isBus hBus, newMem_of_not_isMem hMem]
  rfl

/-- An operation performed twice leaves `SR` as once. -/
theorem newSr_newSr_self (i : Instr) (sr : Word) : newSr i (newSr i sr) = newSr i sr := by
  cases i with
  | srSet pos =>
    by_cases hpos : pos < 8
    · simp only [newSr, if_pos hpos]
      exact setBit_eq_self (getLsbD_setBit_self sr (by omega))
    · simp only [newSr, if_neg hpos]
  | srClr pos =>
    by_cases hpos : pos < 8
    · simp only [newSr, if_pos hpos]
      exact clearBit_eq_self (getLsbD_clearBit_self sr)
    · simp only [newSr, if_neg hpos]
  | srInit | srTest | srRead => rfl
  | busInit | busSet | busClr | busRepack | busSplit | busRead | busReadBytes => rfl
  | memRead | memWrite | memLoadSample | memDump => rfl

/-- Flag operations at distinct positions commute on `SR`. -/
theorem newSr_comm {f g : Nat → Instr} (hf : f ∈ [Instr.srSet, Instr.srClr]) (hg : g ∈ [Instr.srSet, Instr.srClr])
    {p q : Nat} (hp : p < 8) (hq : q < 8) (hpq : p ≠ q) (sr : Word) :
    newSr (g q) (newSr (f p) sr) = newSr (f p) (newSr (g q) sr) := by
  simp only [List.mem_cons, List.not_mem_nil, or_false] at hf hg
  obtain rfl | rfl := hf <;> obtain rfl | rfl := hg <;> simp only [newSr, if_pos hp, if_pos hq]
  · exact setBit_comm sr
  · exact (setBit_clearBit_comm sr hpq.symm).symm
  · exact setBit_clearBit_comm sr hpq
  · exact clearBit_comm sr

/-- Settles O9: the test reads the bit that the operation before it wrote; the other laws are those of `newSr`. -/
theorem flagOperationLaws : Obligations.FlagOperationLaws := by
  refine fun s p hp => ⟨⟨_, _, exec_srSet s hp, exec_srTest _ hp, ?_⟩, ⟨_, _, exec_srClr s hp, exec_srTest _ hp, ?_⟩,
    fun f hf => ?_, fun q hq hqp f hf g hg => ?_⟩
  · rw [State.reply_replies, State.reply_sr, State.setSr_sr, getLsbD_setBit_self s.sr (by omega)]
  · rw [State.reply_replies, State.reply_sr, State.setSr_sr, getLsbD_clearBit_self]
  · have hsr : (f p).isSr = true := by
      simp only [List.mem_cons, List.not_mem_nil, or_false] at hf
      obtain rfl | rfl := hf <;> rfl
    refine ⟨_, _, exec_eq_after _ s, exec_eq_after _ _, ?_⟩
    rw [after_of_isSr hsr, after_sr, newSr_newSr_self]
    rfl
  · exact ⟨_, _, _, _, exec_eq_after _ s, exec_eq_after _ _, exec_eq_after _ s, exec_eq_after _ _,
      newSr_comm hf hg hp hq hqp.symm s.sr⟩

/-! ### The position check -/

/-- Settles O12: the answers on both sides of each width are the branches of `answer`. -/
theorem positionsAreCheckedAgainstTheDeclaredWidth : Obligations.PositionsAreCheckedAgainstTheDeclaredWidth := by
  refine ⟨fun s pos i hi => ?_, fun s pos i hi => ?_⟩
  · obtain rfl | rfl | rfl : i = .srSet pos ∨ i = .srClr pos ∨ i = .srTest pos := by simpa using hi
    all_goals exact ⟨fun h => exec_eq_reply_of_error (if_neg h.not_gt), fun h => exec_replies_of_done (if_pos h)⟩
  · obtain rfl | rfl : i = .busSet pos ∨ i = .busClr pos := by simpa using hi
    all_goals exact ⟨fun h => exec_eq_reply_of_error (if_neg h.not_gt), fun h => exec_replies_of_done (if_pos h)⟩

/-! ### The address bus -/

/-- Settles O13: BUS.INIT writes the constant `bvInitial` and answers it. -/
theorem busInitWritesAndAnswers1000 : Obligations.BusInitWritesAndAnswers1000 := fun _ => rfl

/-- Settles O14: the equations of BUS.SET and BUS.CLR, `setBit` and `clearBit` written out. -/
theorem busSetAndClrWriteOneLine : Obligations.BusSetAndClrWriteOneLine := fun s _ hpos =>
  ⟨exec_busSet s hpos, exec_busClr s hpos⟩

/-- Settles O15: BUS.REPACK writes `swap16`, which is the operand's bytes exchanged, and BUS.READ has no check. -/
theorem repackWritesTheSwappedOperand : Obligations.RepackWritesTheSwappedOperand :=
  ⟨fun _ _ => rfl, fun _ => rfl⟩

/-- Settles O17: the block's own mode is one of the two, and each mode's slots are the operand's bytes. -/
theorem splitWritesTheLatch : Obligations.SplitWritesTheLatch := by
  refine ⟨fun s x => ?_, execBusSplitIn_eq (mode := .invariant), execBusSplitIn_eq (mode := .sourceSwapped)⟩
  show execBusSplitIn Config.splitMode x s = _
  cases Config.splitMode with
  | invariant => rfl
  | sourceSwapped => rfl

/-- Settles O18: the outcomes agree exactly when the slots do, and the slots are the two bytes in either order. -/
theorem splitModesDifferOnUnequalBytes : Obligations.SplitModesDifferOnUnequalBytes := by
  refine fun s x => ⟨fun ⟨t, hinv, hswap⟩ => ?_, fun hbytes => ⟨_, execBusSplitIn_eq s .invariant x, ?_⟩⟩
  · have hstate := Host.Outcome.next.inj (hinv.trans hswap.symm)
    exact (Latch.written.inj (congrArg State.bb hstate)).1
  · have hslots : splitSlots .sourceSwapped x = splitSlots .invariant x := Prod.ext hbytes.symm hbytes
    rw [execBusSplitIn_eq, hslots]

/-- A latch that holds the bytes of two words holds them of equal words. -/
theorem written_bytes_eq_iff {x y : Word} :
    Latch.written (lowByte x) (highByte x) = .written (lowByte y) (highByte y) ↔ x = y := by
  refine ⟨fun h => ?_, fun h => h ▸ rfl⟩
  obtain ⟨hlow, hhigh⟩ := Latch.written.inj h
  rw [← bytes_of_word x, hlow, hhigh, bytes_of_word]

/-- Settles O19: after the split the latch holds the bytes of `x`, in mode SOURCE_SWAPPED those of `swap16 x`. -/
theorem latchIsTheSplitOfTheBusOnlyByChance : Obligations.LatchIsTheSplitOfTheBusOnlyByChance := by
  refine fun s x => ⟨⟨_, execBusSplitIn_eq s .invariant x, written_bytes_eq_iff⟩,
    ⟨_, execBusSplitIn_eq s .sourceSwapped x, ?_⟩⟩
  have hslots : splitSlots .sourceSwapped x = (lowByte (swap16 x), highByte (swap16 x)) := by
    rw [lowByte_swap16, highByte_swap16]
    rfl
  rw [hslots]
  exact written_bytes_eq_iff.trans eq_comm

end Sys2Proof.Machine

/-!
PROOFS. The memory operations (spec/43_memory_ops.md): reads and writes (O23, O24, O26, O27), who changes memory (O28),
the frame of the sample loader (O30), and the dump (O31 to O33). Two canonical memories are equal when every cell reads
the same (`Memory.ext`), so each law of memory is read off its cells.
-/

namespace Sys2Proof.Machine

/-! ### Reads and writes -/

section
variable {m : Memory} {a b : Nat} (v w : Byte)

/-- The second of two writes to one address decides (R176). -/
theorem Memory.write_write_same (h : m.wf = true) (ha : a ≤ 0xFFFF) : (m.write a v).write a w = m.write a w := by
  have hv := Memory.wf_write h ha v
  refine Memory.ext (Memory.wf_write hv ha w) (Memory.wf_write h ha w) fun c => ?_
  rw [Memory.read_write hv, Memory.read_write h, Memory.read_write h]
  by_cases hc : c = a <;> simp [hc]

/-- Writes to distinct addresses commute (R176). -/
theorem Memory.write_comm (h : m.wf = true) (ha : a ≤ 0xFFFF) (hb : b ≤ 0xFFFF) (hab : a ≠ b) :
    (m.write a v).write b w = (m.write b w).write a v := by
  have hv := Memory.wf_write h ha v
  have hw := Memory.wf_write h hb w
  refine Memory.ext (Memory.wf_write hv hb w) (Memory.wf_write hw ha v) fun c => ?_
  rw [Memory.read_write hv, Memory.read_write hw, Memory.read_write h, Memory.read_write h]
  by_cases hc : c = a
  · simp [hc, hab]
  · simp [hc]

end

section
variable {a : Nat} (s : State)

theorem exec_memRead (h : a ≤ 0xFFFF) : exec (.memRead a) s = .next (s.reply (.done (.byte (s.mem.read a)))) :=
  (execMemRead_eq a s).trans (if_pos h)

theorem exec_memWrite (h : a ≤ 0xFFFF) (v : Byte) :
    exec (.memWrite a v) s = .next ((s.setMem (s.mem.write a v)).reply (.done .none)) :=
  (execMemWrite_eq a v s).trans (if_pos h)

end

/-- Settles O23: the equation of MEM.READ. -/
theorem memReadAnswersTheCell : Obligations.MemReadAnswersTheCell := fun s _ ha => exec_memRead s ha

/-- Settles O24: the equation of MEM.WRITE, and reads after a write. -/
theorem memWriteStoresOneCell : Obligations.MemWriteStoresOneCell := fun s a v hwf ha =>
  ⟨_, exec_memWrite s ha v, rfl, (Memory.read_write hwf a a v).trans (if_pos rfl),
    fun b hb => (Memory.read_write hwf a b v).trans (if_neg hb)⟩

/-- MEM.READ after MEM.WRITE answers the written byte. -/
theorem exec_memRead_after_memWrite {s : State} (hwf : s.mem.wf = true) {a : Nat} (ha : a ≤ 0xFFFF) (v : Byte) :
    exec (.memRead a) ((s.setMem (s.mem.write a v)).reply (.done .none)) =
      .next (((s.setMem (s.mem.write a v)).reply (.done .none)).reply (.done (.byte v))) := by
  rw [exec_memRead _ ha, State.reply_mem, State.setMem_mem, Memory.read_write hwf, if_pos rfl]

/-- Settles O26: both sides of the address check, the cell read back after the write. -/
theorem everyCellIsReadableAndWritable : Obligations.EveryCellIsReadableAndWritable := by
  refine fun s v hwf => ⟨fun a ha => ⟨_, _, exec_memWrite s ha v, exec_memRead_after_memWrite hwf ha v, ?_,
    fun b hb => (Memory.read_write hwf a b v).trans (if_neg hb)⟩, fun a ha =>
    ⟨_, _, exec_eq_reply_of_error (if_neg ha.not_ge), rfl⟩⟩
  simp [State.reply, State.setMem]

/-- Settles O27: the equations of the two operations, and the laws of `Memory.write`. -/
theorem memoryReadWriteLaws : Obligations.MemoryReadWriteLaws := by
  refine fun s a b v w hwf ha hb hab => ⟨⟨_, _, exec_memWrite s ha v, exec_memRead_after_memWrite hwf ha v, rfl⟩,
    ⟨_, _, _, exec_memWrite s ha v, exec_memWrite _ ha w, exec_memWrite s ha w, Memory.write_write_same v w hwf ha⟩,
    ⟨_, _, _, exec_memWrite s ha v, exec_memWrite _ hb w, exec_memWrite s hb w, ?_⟩⟩
  rw [exec_memWrite _ ha]
  simp only [State.reply_mem, State.setMem_mem, Memory.write_comm v w hwf ha hb hab]
  rfl

/-! ### Who changes memory -/

/-- Every operation but MEM.WRITE and MEM.LOADSAMPLE leaves memory as it was (R176). -/
theorem newMem_eq_self {i : Instr} (hWrite : ∀ a v, i ≠ .memWrite a v) (hLoad : i ≠ .memLoadSample) (m : Memory) :
    newMem i m = m := by
  cases i with
  | memWrite a v => exact absurd rfl (hWrite a v)
  | memLoadSample => exact absurd rfl hLoad
  | memRead | memDump => rfl
  | srInit | srSet | srClr | srTest | srRead => rfl
  | busInit | busSet | busClr | busRepack | busSplit | busRead | busReadBytes => rfl

/-- Settles O28: by operation, through `after`. -/
theorem onlyWriteAndLoadSampleChangeMemory : Obligations.OnlyWriteAndLoadSampleChangeMemory := by
  intro i s t ht hWrite hLoad
  rw [eq_after ht, after_mem, newMem_eq_self hWrite hLoad]

/-- An operation performed twice leaves memory as once: it writes the same bytes to the same cells. -/
theorem newMem_newMem_self {m : Memory} (h : m.wf = true) (i : Instr) : newMem i (newMem i m) = newMem i m := by
  have hwf := newMem_wf h i
  refine Memory.ext (newMem_wf hwf i) hwf fun a => ?_
  rw [read_newMem hwf, read_newMem h]
  cases byteWritten i a <;> rfl

/-- Settles O30: beyond the 32 bytes the sample writes nothing, and what it writes does not depend on the state. -/
theorem loadSampleChangesOnlyItsCells : Obligations.LoadSampleChangesOnlyItsCells := by
  refine fun s hwf => ⟨after .memLoadSample s, after .memLoadSample (after .memLoadSample s), exec_eq_after _ s,
    ?_, fun a ha => ?_, exec_eq_after _ _, ?_⟩
  · simp only [after, newSr, newBv, newBb, answer]
  · have hnone : sample[a]? = none := List.getElem?_eq_none (by rw [sample_length]; exact ha)
    rw [after_mem, read_newMem hwf, byteWritten, hnone, Option.getD_none]
  · rw [after_mem, after_mem, newMem_newMem_self hwf]

/-! ### The digits of a dump -/

/-- The sixteen digits (R190). -/
theorem hexDigit_eq_getD (d : BitVec 4) : hexDigit d = "0123456789abcdef".toList.getD d.toNat ' ' := by
  have hlen : d.toNat < "0123456789abcdef".toList.length := d.isLt
  rw [hexDigit, List.getD_eq_getElem _ _ hlen, List.getD_eq_getElem _ _ hlen]

theorem hexDigit_mem (d : BitVec 4) : hexDigit d ∈ "0123456789abcdef".toList := by
  have hlen : d.toNat < "0123456789abcdef".toList.length := d.isLt
  rw [hexDigit, List.getD_eq_getElem _ _ hlen]
  exact List.getElem_mem hlen

/-- The two digits of a byte, from its two nibbles as numbers (R190). -/
theorem hex2_eq (v : Byte) : hex2 v = ["0123456789abcdef".toList.getD (v.toNat / 16) ' ',
    "0123456789abcdef".toList.getD (v.toNat % 16) ' '] := by
  have hhigh : (v.extractLsb' 4 4).toNat = v.toNat / 16 := by
    have := v.isLt
    rw [BitVec.extractLsb'_toNat, Nat.shiftRight_eq_div_pow]
    omega
  have hlow : (v.extractLsb' 0 4).toNat = v.toNat % 16 := by
    rw [BitVec.extractLsb'_toNat, Nat.shiftRight_zero]
  rw [hex2, hexDigit_eq_getD, hexDigit_eq_getD, hhigh, hlow]

theorem hex2_subset (v : Byte) : hex2 v ⊆ "0123456789abcdef :".toList := by
  have hdigits : "0123456789abcdef".toList ⊆ "0123456789abcdef :".toList := by decide
  intro c hc
  obtain rfl | rfl : c = hexDigit (v.extractLsb' 4 4) ∨ c = hexDigit (v.extractLsb' 0 4) := by simpa [hex2] using hc
  all_goals exact hdigits (hexDigit_mem _)

theorem dumpCells_subset (m : Memory) (a count : Nat) : dumpCells m a count ⊆ "0123456789abcdef :".toList := by
  induction count generalizing a with
  | zero => exact List.nil_subset _
  | succ k ih => exact List.cons_subset.mpr ⟨by decide, List.append_subset.mpr ⟨hex2_subset _, ih (a + 1)⟩⟩

/-! ### The dump's text -/

theorem toList_dumpText (m : Memory) (n : Nat) :
    (dumpText m n).toList = ['0', '0', '0', '0', ':'] ++ dumpCells m 0 n := String.toList_ofList

theorem exec_memDump {n : Nat} (h : n ≤ 0x10000) (s : State) :
    exec (.memDump n) s = .next (s.reply (.done (.text (dumpText s.mem n)))) :=
  (execMemDump_eq n s).trans (if_pos h)

/-- Settles O31: the nibbles of a byte as numbers; the label and each cell of a dump hold only those characters. -/
theorem hexDigitsOfAByte : Obligations.HexDigitsOfAByte := by
  refine ⟨hex2_eq, by decide, by decide, fun s n hn => ⟨_, _, exec_memDump hn s, rfl, ?_⟩⟩
  rw [toList_dumpText]
  exact List.append_subset.mpr ⟨by decide, dumpCells_subset s.mem 0 n⟩

/-- Settles O32: the label is the first five characters, and each cell three more. -/
theorem dumpTextLayout : Obligations.DumpTextLayout := by
  refine ⟨fun s n hn => ⟨_, exec_memDump hn s, ?_⟩, fun s n hn => exec_eq_reply_of_error (if_neg hn.not_ge)⟩
  rw [toList_dumpText]
  refine ⟨?_, rfl, fun i hi => ?_⟩
  · rw [List.length_append, dumpCells_length]
    rfl
  · have hdrop : (['0', '0', '0', '0', ':'] ++ dumpCells s.mem 0 n).drop (5 + 3 * i) =
        (dumpCells s.mem 0 n).drop (3 * i) := (List.drop_drop (i := 3 * i) (j := 5)).symm
    rw [hdrop, dumpCells_drop s.mem 0 n i hi, Nat.zero_add, hex2_eq]

/-- After MEM.LOADSAMPLE the first 32 cells dump the same whatever memory held before. -/
theorem dumpText_after_memLoadSample {s : State} (h : s.mem.wf = true) :
    dumpText (after .memLoadSample s).mem 32 = dumpText (after .memLoadSample State.reset).mem 32 := by
  have hcells : dumpCells (after .memLoadSample s).mem 0 32 = dumpCells (after .memLoadSample State.reset).mem 0 32 :=
    dumpCells_congr fun i hi => by
      rw [Nat.zero_add, read_after_memLoadSample h hi, read_after_memLoadSample rfl hi]
  rw [dumpText, hcells, dumpText]

/-- The dump of the sample, computed from the reset state. -/
theorem dumpText_sample : dumpText (after .memLoadSample State.reset).mem 32 =
    "0000: a9 00 20 10 00 4c 02 00 00 00 00 00 00 00 00 40 " ++
      "e8 00 20 10 00 4c 02 00 00 00 00 00 00 00 00 40" := by
  decide

/-- Settles O33: the dump does not depend on what memory held, so it is the one from the reset state. -/
theorem dumpOfTheSample : Obligations.DumpOfTheSample := by
  refine fun s hwf => ⟨_, _, exec_eq_after _ s, exec_memDump (by decide) _, ?_⟩
  rw [dumpText_after_memLoadSample hwf, dumpText_sample, State.reply_replies, after_replies, List.append_assoc]
  rfl

end Sys2Proof.Machine

/-!
PROOFS. Errors (spec/60_exceptions.md): the operations that write nothing (O34), an error writes no state (O36), which
operation answers which error (O37), and the status codes (O38).
-/

namespace Sys2Proof.Machine

/-- Settles O34: none of the six operations changes a component in `after`. -/
theorem readingOperationsWriteNothing : Obligations.ReadingOperationsWriteNothing := by
  intro s n i hi
  refine ⟨after i s, exec_eq_after i s, ?_⟩
  simp only [List.mem_cons, List.not_mem_nil, or_false] at hi
  obtain rfl | rfl | rfl | rfl | rfl | rfl := hi <;> rfl

theorem answer_eq_error_of_replies {i : Instr} {s : State} {e : CallerError}
    (h : (after i s).replies = s.replies ++ [.error e]) : answer i s = .error e := by
  simpa using h

/-- Settles O36: an operation that answers an error leaves the reply alone (`after_eq_reply_of_error`). -/
theorem errorsWriteNoState : Obligations.ErrorsWriteNoState := by
  intro i s t e ht hreplies
  obtain rfl := eq_after ht
  exact ⟨after_eq_reply_of_error (answer_eq_error_of_replies hreplies), rfl⟩

/-- An operation with one check answers its error only where the check fails. -/
theorem not_of_check_eq_error {c : Prop} [Decidable c] {r : Result} {e e' : CallerError}
    (h : (if c then Reply.done r else .error e') = .error e) : ¬ c ∧ e = e' := by
  by_cases hc : c
  · rw [if_pos hc] at h
    cases h
  · rw [if_neg hc] at h
    exact ⟨hc, (Reply.error.inj h).symm⟩

/-- Settles O37: the error of an operation with a check is that check's, and the others answer none. -/
theorem eachOperationHasOneCheck : Obligations.EachOperationHasOneCheck := by
  intro i s t e ht hreplies
  obtain rfl := eq_after ht
  have hans := answer_eq_error_of_replies hreplies
  clear ht hreplies
  cases i with
  | srInit | srRead | busInit | busRepack | busSplit | busRead | memLoadSample => cases hans
  | srSet pos =>
    obtain ⟨hpos, rfl⟩ := not_of_check_eq_error hans
    exact .inl ⟨.inl rfl, not_lt.mp hpos⟩
  | srClr pos =>
    obtain ⟨hpos, rfl⟩ := not_of_check_eq_error hans
    exact .inl ⟨.inr (.inl rfl), not_lt.mp hpos⟩
  | srTest pos =>
    obtain ⟨hpos, rfl⟩ := not_of_check_eq_error hans
    exact .inl ⟨.inr (.inr rfl), not_lt.mp hpos⟩
  | busSet pos =>
    obtain ⟨hpos, rfl⟩ := not_of_check_eq_error hans
    exact .inr ⟨.inl rfl, not_lt.mp hpos⟩
  | busClr pos =>
    obtain ⟨hpos, rfl⟩ := not_of_check_eq_error hans
    exact .inr ⟨.inr rfl, not_lt.mp hpos⟩
  | busReadBytes =>
    rcases hbb : s.bb with _ | ⟨lo, hi⟩
    · simp only [answer, hbb] at hans
      obtain rfl := Reply.error.inj hans
      exact ⟨rfl, rfl⟩
    · simp only [answer, hbb] at hans
      cases hans
  | memRead a =>
    obtain ⟨ha, rfl⟩ := not_of_check_eq_error hans
    exact ⟨.inl rfl, not_le.mp ha⟩
  | memWrite a v =>
    obtain ⟨ha, rfl⟩ := not_of_check_eq_error hans
    exact ⟨.inr (.inl ⟨v, rfl⟩), not_le.mp ha⟩
  | memDump n =>
    obtain ⟨hn, rfl⟩ := not_of_check_eq_error hans
    exact ⟨.inr (.inr (by rw [Nat.sub_add_cancel (by omega)])), by omega⟩

/-- Settles O38: the definitions of `Reply.response`, `CallerError.status` and `Status.code`. -/
theorem statusCodesOfResponses : Obligations.StatusCodesOfResponses :=
  ⟨fun _ => rfl, rfl, fun _ => rfl, fun _ => rfl, fun _ => rfl, rfl⟩

end Sys2Proof.Machine
